-- ==== Sys2Proof/Word.lean ====
section
/-!
DEFINITION. The words of the block: bytes, 32-bit dimensions, cache slots and the logical pixel
(00_scope.md R7, R9).
-/
namespace Sys2Proof

/-- A byte, bits 7 down to 0 (R7). As a number it is the `u8` of R8. -/
abbrev Byte := BitVec 8

/-- An image dimension: 32-bit unsigned (R6). -/
abbrev Word32 := BitVec 32

/-- The number of a cache slot, 0..63 (R15). -/
abbrev Slot := Fin 64

/-- The logical pixel `(r, g, b, a)` of R9. Two pixels are equal when all four components are. -/
structure Pixel where
  r : Byte
  g : Byte
  b : Byte
  a : Byte
deriving DecidableEq, Repr

/-- Opaque black, the initial PreviousPixel (R20). -/
def Pixel.opaqueBlack : Pixel := ⟨0#8, 0#8, 0#8, 255#8⟩

/-- Transparent black, the initial value of every cache slot (R20). -/
def Pixel.transparentBlack : Pixel := ⟨0#8, 0#8, 0#8, 0#8⟩

end Sys2Proof
end

