-- ==== Sys2Proof/Config.lean ====
section
/-!
DEFINITION. The parameters of the block that the spec leaves open (00_scope.md R6): fixed when the block
is built (70_reset_and_hazards.md R104), read by its commands, written by none.
-/
namespace Sys2Proof

/-- `MAGIC`, the four bytes that open the header (R6, 92_eei_decisions.md D3). -/
structure Magic where
  m0 : Byte
  m1 : Byte
  m2 : Byte
  m3 : Byte
deriving DecidableEq, Repr

/-- `MAGIC[0..3]` in stream order. -/
def Magic.bytes (m : Magic) : List Byte := [m.m0, m.m1, m.m2, m.m3]

/-- The open parameters of R6. A state carries one `Config`, so a statement about every state is a statement
about every `MAGIC` and about both settings of `CACHE_VALID_TRACKING` (logs 4 and 5). -/
structure Config where
  magic              : Magic
  /-- `CACHE_VALID_TRACKING` (92_eei_decisions.md D4): `false` keeps the sentinel behaviour of R65. -/
  cacheValidTracking : Bool
deriving DecidableEq, Repr

/-- `COUNT_WIDTH` (R6, 92_eei_decisions.md D9): the width of a hardware pixel counter. The spec gives it no
value, so it has no body; the model's counter is unbounded (log 6). -/
opaque Config.countWidth : Nat

end Sys2Proof
end

