-- ==== Sys2Proof/Syntax.lean ====
section
/-!
DEFINITION. The instructions: one constructor for each row of spec/opcode_table.json, with the operands of
30_encoding.md R50. Chunk fields are plain numbers, so that a descriptor out of range can be written down
and be refused (60_exceptions.md R94, BAD_DESCRIPTOR).
-/
namespace Sys2Proof

/-- The rows of the opcode table: six chunk kinds, two framing elements, four host commands. -/
inductive Instr where
  /-- `INDEX s` (R38, R81). -/
  | index (slot : Nat)
  /-- `DIFF dr, dg, db` (R39, R82). -/
  | diff (dr dg db : Int)
  /-- `LUMA dg, dr', db'` (R40, R83). -/
  | luma (dg drg dbg : Int)
  /-- `RUN n` (R41, R80). -/
  | run (n : Nat)
  /-- `RGB r, g, b` (R42, R84). -/
  | rgb (r g b : Byte)
  /-- `RGBA r, g, b, a` (R43, R85). -/
  | rgba (r g b a : Byte)
  /-- `HEADER w, h, c` (R44, R87). -/
  | header (w h : Word32) (c : Byte)
  /-- `END` (R45, R89). -/
  | endMark
  /-- `START w, h, c` (R51). -/
  | start (w h : Word32) (c : Byte)
  /-- `PIXEL r, g, b[, a]` (R52): the bytes the command carries. -/
  | pixel (bytes : List Byte)
  /-- `FINISH` (R53). -/
  | finish
  /-- `ENCODE w, h, c, IN` (R54): byte k of `input` is the byte of IN at address k (R24). -/
  | encode (w h : Word32) (c : Byte) (input : List Byte)
deriving DecidableEq, Repr

/-- The host commands of R50: the transactions the block's interface offers (40_encoder_top.md section 1). -/
def Instr.isHostCommand : Instr → Bool
  | .index _ => false
  | .diff _ _ _ => false
  | .luma _ _ _ => false
  | .run _ => false
  | .rgb _ _ _ => false
  | .rgba _ _ _ _ => false
  | .header _ _ _ => false
  | .endMark => false
  | .start _ _ _ => true
  | .pixel _ => true
  | .finish => true
  | .encode _ _ _ _ => true

/-- The six chunk kinds of R37. -/
def Instr.isChunk : Instr → Bool
  | .index _ => true
  | .diff _ _ _ => true
  | .luma _ _ _ => true
  | .run _ => true
  | .rgb _ _ _ => true
  | .rgba _ _ _ _ => true
  | .header _ _ _ => false
  | .endMark => false
  | .start _ _ _ => false
  | .pixel _ => false
  | .finish => false
  | .encode _ _ _ _ => false

end Sys2Proof
end

