-- ==== Sys2Proof/WellFormed.lean ====
section
/-!
DEFINITION. Which instructions are well formed: every operand in the range 30_encoding.md R46 and R50 give it.
-/
namespace Sys2Proof

/-- `lo ≤ v ≤ hi`, the range tests of R8 on signed values. -/
def inRange (lo hi v : Int) : Bool := decide (lo ≤ v) && decide (v ≤ hi)

/-- A channel count the block admits: 3 or 4 (R6). -/
def legalChannels (c : Byte) : Bool := c == 3#8 || c == 4#8

/-- Operand ranges of R50. A PIXEL carries 3 or 4 bytes; which of the two depends on the pass (R56). -/
def Instr.wellFormed : Instr → Bool
  | .index slot => decide (slot ≤ 63)
  | .diff dr dg db => inRange (-2) 1 dr && inRange (-2) 1 dg && inRange (-2) 1 db
  | .luma dg drg dbg => inRange (-32) 31 dg && inRange (-8) 7 drg && inRange (-8) 7 dbg
  | .run n => decide (1 ≤ n) && decide (n ≤ 62)
  | .rgb _ _ _ => true
  | .rgba _ _ _ _ => true
  | .header _ _ c => legalChannels c
  | .endMark => true
  | .start _ _ c => legalChannels c
  | .pixel bytes => bytes.length == 3 || bytes.length == 4
  | .finish => true
  | .encode _ _ c _ => legalChannels c

end Sys2Proof
end

