-- ==== Sys2Proof/Decode.lean ====
section
/-!
DEFINITION. The decoder of the output stream's elements, total on any bytes, and the encoder, both written
from the bit layouts of 30_encoding.md (R37 to R47). Host commands have no binary encoding (R50), so no byte
sequence decodes to one. This decoder reads chunks as syntax; turning a stream back into pixels is out of
scope (00_scope.md R5).
-/
namespace Sys2Proof

/-- Why a byte sequence is no element. -/
inductive DecodeError where
  /-- The bytes end before the element does. -/
  | truncated
  /-- The bytes at the start of a stream are not the 14 bytes of a HEADER (R44). -/
  | notHeader
  /-- Bytes follow the END of a stream (R45: END is the last 8 bytes). -/
  | bytesAfterEnd
deriving DecidableEq, Repr

/-! ### The default parameters -/

/-- The default the spec suggests for `MAGIC`, ASCII "qoif". PRESUMED, unsafe (log 4): 93_implementation_defined.md
G2 says the value comes from general knowledge. -/
def Magic.default : Magic := ⟨0x71, 0x6F, 0x69, 0x66⟩

/-- The defaults of R6. -/
def Config.default : Config := { magic := Magic.default, cacheValidTracking := false }

/-! ### The first-byte map (R47) -/

/-- The six chunk kinds of R37. -/
inductive ChunkKind where
  | index | diff | luma | run | rgb | rgba
deriving DecidableEq, Repr

/-- One row of the map of R47: mask and match on the first byte, the kind, and the chunk's length. -/
structure KindRow where
  mask   : Byte
  pattern : Byte
  kind   : ChunkKind
  length : Nat
deriving DecidableEq, Repr

/-- The map of R47 in the order it must be tested: the two 8-bit tags before the 2-bit tags. -/
def kindRows : List KindRow :=
  [ { mask := 0xFF, pattern := 0xFE, kind := .rgb,   length := 4 },
    { mask := 0xFF, pattern := 0xFF, kind := .rgba,  length := 5 },
    { mask := 0xC0, pattern := 0x00, kind := .index, length := 1 },
    { mask := 0xC0, pattern := 0x40, kind := .diff,  length := 1 },
    { mask := 0xC0, pattern := 0x80, kind := .luma,  length := 2 },
    { mask := 0xC0, pattern := 0xC0, kind := .run,   length := 1 } ]

/-- The row a first byte falls under. R47 assigns all 256 values, so this is never `none`. -/
def kindRow? (b : Byte) : Option KindRow := kindRows.find? fun row => b &&& row.mask == row.pattern

/-! ### Decoding -/

/-- A field of `width` bits from bit `low`, read as an unsigned number less a bias (R46). -/
def biasedField (b : Byte) (low width : Nat) (bias : Int) : Int :=
  ((b.extractLsb' low width).toNat : Int) - bias

/-- One chunk from the front of the bytes, with the bytes after it. The fields are those of R38 to R43. -/
def decodeChunk : List Byte → Except DecodeError (Instr × List Byte)
  | [] => .error .truncated
  | b0 :: rest =>
    match (kindRow? b0).map KindRow.kind with
    | some .index => .ok (.index (b0.extractLsb' 0 6).toNat, rest)
    | some .diff =>
      .ok (.diff (biasedField b0 4 2 2) (biasedField b0 2 2 2) (biasedField b0 0 2 2), rest)
    | some .luma =>
      match rest with
      | b1 :: tail =>
        .ok (.luma (biasedField b0 0 6 32) (biasedField b1 4 4 8) (biasedField b1 0 4 8), tail)
      | [] => .error .truncated
    | some .run => .ok (.run ((b0.extractLsb' 0 6).toNat + 1), rest)
    | some .rgb =>
      match rest with
      | r :: g :: b :: tail => .ok (.rgb r g b, tail)
      | _ => .error .truncated
    | some .rgba =>
      match rest with
      | r :: g :: b :: a :: tail => .ok (.rgba r g b a, tail)
      | _ => .error .truncated
    | none => .error .truncated

/-- The eight bytes of END (R45). -/
def endBytes : List Byte := [0x00, 0x00, 0x00, 0x00, 0x00, 0x00, 0x00, 0x01]

/-- One element of a stream after its header. END is told from INDEX 0 by the test for its 8-byte pattern at
the current position, one of the two ways R49 names (DESIGN CHOICE, log 3). -/
def decodeElement (bytes : List Byte) : Except DecodeError (Instr × List Byte) :=
  if bytes.take 8 = endBytes then .ok (.endMark, bytes.drop 8) else decodeChunk bytes

/-- A 32-bit number from four bytes, the most significant first (R27). -/
def word32OfBytes (b3 b2 b1 b0 : Byte) : Word32 := b3 ++ b2 ++ b1 ++ b0

/-- The bytes of a 32-bit number, the most significant first (R27). -/
def word32Bytes (w : Word32) : List Byte :=
  [w.extractLsb' 24 8, w.extractLsb' 16 8, w.extractLsb' 8 8, w.extractLsb' 0 8]

/-- The HEADER at the start of a stream (R44): MAGIC, two big-endian numbers, the channel count (3 or 4) and
the colorspace byte 0. -/
def decodeHeader (magic : Magic) : List Byte → Except DecodeError (Instr × List Byte)
  | m0 :: m1 :: m2 :: m3 :: w3 :: w2 :: w1 :: w0 :: h3 :: h2 :: h1 :: h0 :: c :: cs :: rest =>
    if [m0, m1, m2, m3] = magic.bytes ∧ legalChannels c ∧ cs = 0 then
      .ok (.header (word32OfBytes w3 w2 w1 w0) (word32OfBytes h3 h2 h1 h0) c, rest)
    else .error .notHeader
  | _ => .error .notHeader

/-- The element at a position of the stream: at offset 0 a HEADER is recognised by its MAGIC (R32: it is the
first 14 bytes of OUT); anything else is an element after the header (log 3). -/
def decodeAt (magic : Magic) (atStart : Bool) (bytes : List Byte) :
    Except DecodeError (Instr × List Byte) :=
  match atStart, decodeHeader magic bytes with
  | true, .ok found => .ok found
  | _, _ => decodeElement bytes

/-- The elements of a stream after its header, up to and with END (R90). The first argument bounds the number
of elements. -/
def decodeBody : Nat → List Byte → Except DecodeError (List Instr)
  | 0, _ => .error .truncated
  | fuel + 1, bytes =>
    match decodeElement bytes with
    | .error e => .error e
    | .ok (.endMark, []) => .ok [.endMark]
    | .ok (.endMark, _ :: _) => .error .bytesAfterEnd
    | .ok (i, rest) =>
      match decodeBody fuel rest with
      | .error e => .error e
      | .ok is => .ok (i :: is)

/-- A whole stream as its elements: the HEADER, the chunks, the END (R90). -/
def decodeStream (magic : Magic) (bytes : List Byte) : Except DecodeError (List Instr) :=
  match decodeHeader magic bytes with
  | .error e => .error e
  | .ok (h, rest) =>
    match decodeBody rest.length rest with
    | .error e => .error e
    | .ok is => .ok (h :: is)

/-! ### Encoding -/

/-- A biased field: `v + bias` in `width` bits (R46). -/
def biasedBits (width : Nat) (bias v : Int) : BitVec width := BitVec.ofInt width (v + bias)

/-- The bytes of an instruction, by concatenating the fields of R38 to R45. A host command has none (R50). -/
def encode (magic : Magic) : Instr → Option (List Byte)
  | .index slot => some [0b00#2 ++ BitVec.ofNat 6 slot]
  | .diff dr dg db => some [0b01#2 ++ biasedBits 2 2 dr ++ biasedBits 2 2 dg ++ biasedBits 2 2 db]
  | .luma dg drg dbg =>
    some [0b10#2 ++ biasedBits 6 32 dg, biasedBits 4 8 drg ++ biasedBits 4 8 dbg]
  | .run n => some [0b11#2 ++ biasedBits 6 (-1) n]
  | .rgb r g b => some [0b11111110#8, r, g, b]
  | .rgba r g b a => some [0b11111111#8, r, g, b, a]
  | .header w h c => some (magic.bytes ++ word32Bytes w ++ word32Bytes h ++ [c, 0x00#8])
  | .endMark => some endBytes
  | .start _ _ _ => none
  | .pixel _ => none
  | .finish => none
  | .encode _ _ _ _ => none

/-! ### Words numbered as the opcode table numbers them -/

/-- The length in bytes of the longest element, HEADER (R30). -/
def longestElement : Nat := 14

/-- The `nbits` low bits of `w` as bytes: bit 0 is the least significant bit of the first byte, and every bit
from `nbits` on is 0, up to the longest element. -/
def tableBytes (nbits w : Nat) : List Byte :=
  (List.range longestElement).map fun k => BitVec.ofNat 8 ((w % 2 ^ nbits) / 2 ^ (8 * k))

/-- The instruction the decoder reads from a table word standing at the start of a stream, with the default
`MAGIC`. -/
def decodeTableWord (nbits w : Nat) : Option Instr :=
  match decodeAt Magic.default true (tableBytes nbits w) with
  | .ok (i, _) => some i
  | .error _ => none

end Sys2Proof
end

