-- ==== Sys2Proof/Machine/State.lean ====
section
/-!
DEFINITION. The state of the block as plain data (10_state.md R11), the reasons a step can stop, and the state
after hardware reset (R21).
-/
namespace Sys2Proof.Machine

/-- `phase` (R19): no pass open, a pass open, or a pass complete. -/
inductive Phase where
  | idle | body | done
deriving DecidableEq, Repr

/-- A byte space held as (address, byte) cells. Its one form is `Memory.wf` (Machine/Ops.lean): the addresses are
0, 1, 2, ... in order, and an address with no cell does not exist, so it reads as no byte (R24, log 14). -/
structure Memory where
  cells : List Host.Cell
deriving DecidableEq, Repr

/-- What the host can place on the block's port (the model's own type, log 1). -/
inductive Transaction where
  /-- A hardware reset (R102, log 12). -/
  | reset
  /-- An instruction with typed operands; the host commands have no other form (R50). -/
  | command (i : Instr)
  /-- The encoded bytes of a chunk or framing element (log 3). -/
  | element (bytes : List Byte)
deriving DecidableEq, Repr

/-- The state of one block instance. `COLORSPACE` is hardwired and is read by `State.colorspace`. -/
structure State where
  /-- PreviousPixel (R12). -/
  prev     : Pixel
  /-- RunCounter, six bits (R13). -/
  run      : BitVec 6
  /-- ColorCache (R15). -/
  cache    : Vector Pixel 64
  /-- The valid bits of the `CACHE_VALID_TRACKING = true` variant (R11, R16); never read in the other (log 5). -/
  valid    : Vector Bool 64
  /-- `WIDTH` (R18). -/
  width    : Word32
  /-- `HEIGHT` (R18). -/
  height   : Word32
  /-- `CHANNELS` (R18): 3 or 4 while a pass is open. -/
  channels : Byte
  /-- `phase` (R19). -/
  phase    : Phase
  /-- The pixels accepted in this pass (R17). It never wraps (log 6). -/
  npix     : Nat
  /-- `OUT` (R11, R24). -/
  out      : Memory
  /-- The parameters the block was built with (R6, R104); no command writes them. -/
  config   : Config
  /-- The transactions the host has placed, oldest first (the model's own field, log 1). -/
  port     : List Transaction
deriving DecidableEq, Repr

/-- `COLORSPACE`: an 8-bit register hardwired to 0, which no command writes (R18, log 9). -/
def State.colorspace (_ : State) : Byte := 0x00#8

/-- The block raises no exception and has no trap (R93, R97): there is no fault. -/
inductive Fault where
deriving DecidableEq, Repr

/-- Why a step is refused. All but the last two are the reasons of R94. A refusal ends the run, so nothing
about it can be proved from the model: safe (log 7). -/
inductive Refusal where
  /-- BAD_CHANNELS, raised by START and ENCODE: the channel count is neither 3 nor 4. Safe. -/
  | badChannels
  /-- START_IN_PASS, raised by START and ENCODE while a pass is open. Safe. -/
  | startInPass
  /-- PIXEL_OUTSIDE_PASS, raised by PIXEL while no pass is open. Safe. -/
  | pixelOutsidePass
  /-- PIXEL_SIZE, raised by PIXEL: the number of bytes is not `CHANNELS`. Safe. -/
  | pixelSize
  /-- FINISH_OUTSIDE_PASS, raised by FINISH while no pass is open. Safe. -/
  | finishOutsidePass
  /-- BAD_DESCRIPTOR, raised by the packer: a chunk field is out of its range. Safe. -/
  | badDescriptor
  /-- The model's own, raised by the fetch: the encoded bytes on the port end before their element does. Safe
  (log 3). -/
  | truncatedElement
  /-- Raised by `exec` for an instruction without a meaning. No arm raises it. Safe. -/
  | notModelled (mnemonic : String)
deriving DecidableEq, Repr

/-- The state after hardware reset: the table of R21. The parameters are the defaults of R6 (logs 4 and 5), and
the port is empty (log 1). -/
def State.reset : State where
  prev     := Pixel.opaqueBlack
  run      := 0#6
  cache    := Vector.replicate 64 Pixel.transparentBlack
  valid    := Vector.replicate 64 false
  width    := 0#32
  height   := 0#32
  channels := 0#8
  phase    := .idle
  npix     := 0
  out      := { cells := [] }
  config   := Config.default
  port     := []

end Sys2Proof.Machine
end

