-- ==== Sys2Proof/Machine/Chunk.lean ====
section
/-!
DEFINITION. The chunk descriptor, the value the classifier hands the packer (40_encoder_top.md R58).
-/
namespace Sys2Proof.Machine

/-- A chunk descriptor. The classifier builds only descriptors in the ranges of R58; the packer refuses others. -/
inductive Chunk where
  | run (n : Nat)
  | index (slot : Nat)
  | diff (dr dg db : Int)
  | luma (dg drg dbg : Int)
  | rgb (r g b : Byte)
  | rgba (r g b a : Byte)
deriving DecidableEq, Repr

/-- The opcode-table row of a descriptor, with its operands. -/
def Chunk.instr : Chunk → Instr
  | .run n => .run n
  | .index slot => .index slot
  | .diff dr dg db => .diff dr dg db
  | .luma dg drg dbg => .luma dg drg dbg
  | .rgb r g b => .rgb r g b
  | .rgba r g b a => .rgba r g b a

end Sys2Proof.Machine
end

