-- ==== Sys2Proof/Machine/Ops.lean ====
section
/-!
DEFINITION. The shared operations over the state: OUT and its append, the colour cache, the initialisation of a
pass, hardware reset, and sequencing. The block takes no exception and has no return from one (60_exceptions.md
R93, R97), so there is no such operation.
-/
namespace Sys2Proof.Machine

/-- Do `f` in the state `o` ends in; a stop stays a stop. -/
def andThen (o : Host.Outcome State Fault Refusal) (f : State → Host.Outcome State Fault Refusal) :
    Host.Outcome State Fault Refusal :=
  match o with
  | .next s => f s
  | .fault r => .fault r
  | .refused r => .refused r

/-! ### OUT (20_memory.md R24, R30) -/

/-- `|OUT|`, which is also the address the next byte goes to (R10). -/
def Memory.size (m : Memory) : Nat := m.cells.length

/-- The byte at an address; none where the address does not exist (R24: addresses run from 0 to |OUT| - 1). -/
def Memory.readByte (m : Memory) (a : Nat) : Option Byte := m.cells.lookup a

/-- The contents in address order. -/
def Memory.bytes (m : Memory) : List Byte := m.cells.map Prod.snd

/-- The one canonical form: the addresses are 0, 1, ..., size - 1 in this order. -/
abbrev Memory.wf (m : Memory) : Prop := m.cells.map Prod.fst = List.range m.size

/-- Append bytes, the first at address `size` (R30). -/
def Memory.append (m : Memory) : List Byte → Memory
  | [] => m
  | b :: bs => Memory.append { cells := m.cells ++ [(m.size, b)] } bs

/-- `emit(bytes)`: the block's only memory write (R10, R30). -/
def emit (bytes : List Byte) (s : State) : State := { s with out := s.out.append bytes }

/-! ### The scan registers (10_state.md R12, R13) -/

/-- Write PreviousPixel. -/
def setPrev (px : Pixel) (s : State) : State := { s with prev := px }

/-- Write RunCounter. -/
def setRun (n : BitVec 6) (s : State) : State := { s with run := n }

/-! ### The colour cache (41_color_cache_lookup.md) -/

/-- `Hash(px)`, in ℕ (R60). -/
def pixelHash (px : Pixel) : Nat := px.r.toNat * 3 + px.g.toNat * 5 + px.b.toNat * 7 + px.a.toNat * 11

/-- `Slot(px) = Hash(px) mod 64` (R61). -/
def slot (px : Pixel) : Slot := ⟨pixelHash px % 64, Nat.mod_lt _ (by decide)⟩

/-- The value a slot holds (R15). -/
def readSlot (k : Slot) (s : State) : Pixel := s.cache[k]

/-- The valid bit of a slot (R11); used only when `CACHE_VALID_TRACKING`. -/
def readValid (k : Slot) (s : State) : Bool := s.valid[k]

/-- `CacheLookup(px)`: the slot, and whether it hits, in both settings of `CACHE_VALID_TRACKING` (R62). -/
def cacheLookup (px : Pixel) (s : State) : Slot × Bool :=
  (slot px,
   if s.config.cacheValidTracking then readSlot (slot px) s == px && readValid (slot px) s
   else readSlot (slot px) s == px)

/-- `CacheWrite(k, px)` (R63): the valid bit is set only when `CACHE_VALID_TRACKING`. -/
def cacheWrite (k : Slot) (px : Pixel) (s : State) : State :=
  { s with
    cache := s.cache.set k px
    valid := if s.config.cacheValidTracking then s.valid.set k true else s.valid }

/-! ### Initialisation -/

/-- The scan state, `npix` and `OUT` as START sets them, before the header is emitted (R20). -/
def initPass (s : State) : State :=
  { s with
    prev := Pixel.opaqueBlack
    run := 0#6
    cache := Vector.replicate 64 Pixel.transparentBlack
    valid := Vector.replicate 64 false
    npix := 0
    out := { cells := [] } }

/-- Hardware reset: every piece of state takes its value of R21, whatever the phase (R102). The parameters and
the host's pending transactions are not state of the block and stay (log 12). -/
def hardwareReset (s : State) : State :=
  { State.reset with config := s.config, port := s.port }

end Sys2Proof.Machine
end

