-- ==== Sys2Proof/Machine/Operands.lean ====
section
/-!
DEFINITION. How operands are read and formed: signed readings and wraparound subtraction (00_scope.md R8), the
logical pixel (R9), reads of the input buffer (20_memory.md R25, R26).
-/
namespace Sys2Proof.Machine

/-- `s8(v)`: the low 8 bits of an integer, read as a two's-complement number (R8). -/
def s8 (v : Int) : Int := if v % 256 < 128 then v % 256 else v % 256 - 256

/-- `wsub8(a, b) = s8(a - b)`: 8-bit wraparound subtraction (R8). -/
def wsub8 (a b : Byte) : Int := s8 ((a.toNat : Int) - (b.toNat : Int))

/-- The logical pixel of the bytes of a stored pixel, R, G, B[, A]: alpha is the fourth byte in a 4-channel pass
and 255 otherwise (R9, R25, R52). None where there are no three colour bytes. -/
def logicalPixel (channels : Byte) : List Byte → Option Pixel
  | r :: g :: b :: rest =>
    if channels = 4#8 then
      match rest with
      | a :: _ => some ⟨r, g, b, a⟩
      | [] => none
    else some ⟨r, g, b, 255#8⟩
  | _ => none

/-- `MemRead(addr, n)` on the input buffer IN, the lowest address first (R10, R25). -/
def memRead (input : List Byte) (addr n : Nat) : List Byte := (input.drop addr).take n

/-- The stored pixels of IN: pixel i is the `c` bytes from `i * c` (R25), for the `L div c` complete groups; the
trailing bytes are not read (R26). -/
def pixelGroups (c : Nat) (input : List Byte) : List (List Byte) :=
  (List.range (input.length / c)).map fun i => memRead input (i * c) c

end Sys2Proof.Machine
end

