-- ==== Sys2Proof/Machine/Flags.lean ====
section
/-!
DEFINITION. The block has no condition flags (10_state.md R19). These are the classifier's internal signals (run
limit, run-equal, hit, diff-eligible, luma-eligible), recomputed for every pixel and seen by no later command.
-/
namespace Sys2Proof.Machine

/-- `RUN_MAX` (00_scope.md R6). -/
abbrev runMax : Nat := 62

/-- The condition of step 1: the pixel equals `prev` in all four components and `run < 62` (R68). -/
def runContinues (px : Pixel) (s : State) : Bool := px == s.prev && decide (s.run.toNat < runMax)

/-- The signed deltas of R71 against the previous pixel: red, green, blue. Alpha has none. -/
structure Deltas where
  dr : Int
  dg : Int
  db : Int
deriving DecidableEq, Repr

/-- The deltas of R71. -/
def deltas (px prev : Pixel) : Deltas :=
  { dr := wsub8 px.r prev.r, dg := wsub8 px.g prev.g, db := wsub8 px.b prev.b }

/-- The condition of step 4 on the deltas (R72). -/
def diffEligible (d : Deltas) : Bool := inRange (-2) 1 d.dr && inRange (-2) 1 d.dg && inRange (-2) 1 d.db

/-- `drg = s8(dr - dg)` (R73). -/
def lumaRed (d : Deltas) : Int := s8 (d.dr - d.dg)

/-- `dbg = s8(db - dg)` (R73). -/
def lumaBlue (d : Deltas) : Int := s8 (d.db - d.dg)

/-- The condition of step 5 on the deltas (R73). -/
def lumaEligible (d : Deltas) : Bool :=
  inRange (-32) 31 d.dg && inRange (-8) 7 (lumaRed d) && inRange (-8) 7 (lumaBlue d)

end Sys2Proof.Machine
end

