-- ==== Sys2Proof/Machine/Packer.lean ====
section
/-!
DEFINITION. bit_packer (43_bit_packer.md): the packing formulas, and the meanings of the six chunk rows of the
opcode table. Executing a chunk row hands its descriptor to the packer and appends the packed bytes to OUT
(R86, R88); the spec names no phase for it and no other state. That it runs in every phase, and RGB and RGBA whatever
CHANNELS is, is a DESIGN CHOICE, unsafe (log 2).
-/
namespace Sys2Proof.Machine

/-- A number as a byte; the packing formulas give it values in 0..255 only. -/
def byteOf (v : Int) : Byte := BitVec.ofInt 8 v

/-- The chunk fields are in the ranges of R58. -/
def Chunk.inRange (k : Chunk) : Bool := k.instr.wellFormed

/-- The formulas of R80 to R85, for a descriptor in range. -/
def packFields : Chunk → List Byte
  | .run n => [0xC0#8 ||| byteOf (n - 1)]
  | .index slot => [byteOf slot]
  | .diff dr dg db => [0x40#8 ||| byteOf (dr + 2) <<< 4 ||| byteOf (dg + 2) <<< 2 ||| byteOf (db + 2)]
  | .luma dg drg dbg => [0x80#8 ||| byteOf (dg + 32), byteOf (drg + 8) <<< 4 ||| byteOf (dbg + 8)]
  | .rgb r g b => [0xFE#8, r, g, b]
  | .rgba r g b a => [0xFF#8, r, g, b, a]

/-- `Pack(k)`; a descriptor with a field out of range has no packing (R80 to R83, R94). -/
def pack (k : Chunk) : Option (List Byte) := if k.inRange then some (packFields k) else none

/-- `emit(Pack(k))`, or the refusal BAD_DESCRIPTOR (R94). -/
def emitChunk (k : Chunk) (s : State) : Host.Outcome State Fault Refusal :=
  match pack k with
  | some bytes => .next (emit bytes s)
  | none => .refused .badDescriptor

/-- Emit descriptors in order, back to back (R86). -/
def emitChunks : List Chunk → State → Host.Outcome State Fault Refusal
  | [], s => .next s
  | k :: ks, s => andThen (emitChunk k s) (emitChunks ks)

/-- INDEX (R81). -/
def execIndex (slot : Nat) (s : State) : Host.Outcome State Fault Refusal := emitChunk (.index slot) s

/-- DIFF (R82). -/
def execDiff (dr dg db : Int) (s : State) : Host.Outcome State Fault Refusal := emitChunk (.diff dr dg db) s

/-- LUMA (R83). -/
def execLuma (dg drg dbg : Int) (s : State) : Host.Outcome State Fault Refusal :=
  emitChunk (.luma dg drg dbg) s

/-- RUN (R80). -/
def execRun (n : Nat) (s : State) : Host.Outcome State Fault Refusal := emitChunk (.run n) s

/-- RGB (R84). Executed by itself it does not look at CHANNELS: DESIGN CHOICE, unsafe (log 2). A pass emits it only with
3 channels (R48), which is the classifier's choice (`rawChunk`). -/
def execRgb (r g b : Byte) (s : State) : Host.Outcome State Fault Refusal := emitChunk (.rgb r g b) s

/-- RGBA (R85). Executed by itself it does not look at CHANNELS: DESIGN CHOICE, unsafe (log 2). A pass emits it only with
4 channels (R48), which is the classifier's choice (`rawChunk`). -/
def execRgba (r g b a : Byte) (s : State) : Host.Outcome State Fault Refusal := emitChunk (.rgba r g b a) s

end Sys2Proof.Machine
end

