-- ==== Sys2Proof/Machine/Formatter.lean ====
section
/-!
DEFINITION. stream_formatter (44_stream_formatter.md): the header and the terminator, and the meanings of the two
framing rows of the opcode table (log 2).
-/
namespace Sys2Proof.Machine

/-- `HEADER(w, h, c)` with the parameter MAGIC and the colorspace byte (R87). -/
def headerBytes (magic : Magic) (w h : Word32) (c colorspace : Byte) : List Byte :=
  magic.bytes ++ word32Bytes w ++ word32Bytes h ++ [c, colorspace]

/-- `emit(HEADER(w, h, c))`; the colorspace byte is the hardwired register (R18, R87). -/
def emitHeader (w h : Word32) (c : Byte) (s : State) : State :=
  emit (headerBytes s.config.magic w h c s.colorspace) s

/-- The eight bytes of the terminator (R89). -/
def terminatorBytes : List Byte := [0x00, 0x00, 0x00, 0x00, 0x00, 0x00, 0x00, 0x01]

/-- `emit(END)` (R89). -/
def emitTerminator (s : State) : State := emit terminatorBytes s

/-- HEADER (R87): the bytes as given; the rule names no refusal (log 13). -/
def execHeader (w h : Word32) (c : Byte) (s : State) : Host.Outcome State Fault Refusal :=
  .next (emitHeader w h c s)

/-- END (R89). -/
def execEndMark (s : State) : Host.Outcome State Fault Refusal := .next (emitTerminator s)

end Sys2Proof.Machine
end

