-- ==== Sys2Proof/Machine/Classifier.lean ====
section
/-!
DEFINITION. chunk_classifier (42_chunk_classifier.md): the priority chain of R67, which gives the descriptors to
emit, in order, and the state with `prev`, `run` and the cache updated.
-/
namespace Sys2Proof.Machine

/-- Step 6: RGB in a 3-channel pass, RGBA otherwise, whatever the alpha (R74). -/
def rawChunk (channels : Byte) (px : Pixel) : Chunk :=
  if channels = 3#8 then .rgb px.r px.g px.b else .rgba px.r px.g px.b px.a

/-- Steps 4 to 6: the first of DIFF, LUMA and raw that applies to a pixel the cache missed (R72 to R74). -/
def missChunk (channels : Byte) (px prev : Pixel) : Chunk :=
  let d := deltas px prev
  if diffEligible d then .diff d.dr d.dg d.db
  else if lumaEligible d then .luma d.dg (lumaRed d) (lumaBlue d)
  else rawChunk channels px

/-- Steps 3 to 6: the pixel's own chunk. A hit writes only `prev` (R70); a miss writes the slot the lookup read
and `prev` (R63, R72 to R75). -/
def ownChunk (px : Pixel) (s : State) : Chunk × State :=
  let found := cacheLookup px s
  if found.2 then (.index found.1, setPrev px s)
  else (missChunk s.channels px s.prev, setPrev px (cacheWrite found.1 px s))

/-- `Classify(px)` (R67): at most two descriptors, and the state after the pixel. -/
def classify (px : Pixel) (s : State) : List Chunk × State :=
  if runContinues px s then ([], setRun (s.run + 1#6) s)
  else if s.run = 0#6 then
    let own := ownChunk px s
    ([own.1], own.2)
  else if px = s.prev then ([.run s.run.toNat], setRun 1#6 s)
  else
    let own := ownChunk px (setRun 0#6 s)
    ([.run s.run.toNat, own.1], own.2)

/-- The end-of-stream flush (R78): the descriptors to emit, and the state with the counter cleared. -/
def flushRun (s : State) : List Chunk × State :=
  if s.run = 0#6 then ([], s) else ([.run s.run.toNat], setRun 0#6 s)

end Sys2Proof.Machine
end

