-- ==== Sys2Proof/Machine/Commands.lean ====
section
/-!
DEFINITION. The host commands (40_encoder_top.md R51 to R54). A command out of its phase, or with operands out of
its contract, is refused; the phase check comes first (R55, R56, R96).
-/
namespace Sys2Proof.Machine

/-- Latch the operands of START, initialise the pass and emit the header (R20, R51). -/
def openPass (w h : Word32) (c : Byte) (s : State) : Host.Outcome State Fault Refusal :=
  if s.phase = .body then .refused .startInPass
  else if legalChannels c then
    .next { emitHeader w h c (initPass { s with width := w, height := h, channels := c }) with phase := .body }
  else .refused .badChannels

/-- Encode one pixel: classify it, emit its chunks in order, count it (R52). A pixel whose bytes give no logical
pixel is refused by its size; with `CHANNELS` 3 or 4 there is none (log 11). -/
def acceptPixel (bytes : List Byte) (s : State) : Host.Outcome State Fault Refusal :=
  if s.phase = .body then
    if bytes.length = s.channels.toNat then
      match logicalPixel s.channels bytes with
      | some px =>
        let decided := classify px s
        andThen (emitChunks decided.1 decided.2) fun t => .next { t with npix := t.npix + 1 }
      | none => .refused .pixelSize
    else .refused .pixelSize
  else .refused .pixelOutsidePass

/-- Accept stored pixels in buffer order (R33). -/
def acceptPixels : List (List Byte) → State → Host.Outcome State Fault Refusal
  | [], s => .next s
  | p :: ps, s => andThen (acceptPixel p s) (acceptPixels ps)

/-- Flush the run, emit the terminator, close the pass (R53). -/
def closePass (s : State) : Host.Outcome State Fault Refusal :=
  if s.phase = .body then
    let flushed := flushRun s
    andThen (emitChunks flushed.1 flushed.2) fun t => .next { emitTerminator t with phase := .done }
  else .refused .finishOutsidePass

/-- START (R51). -/
def execStart (w h : Word32) (c : Byte) (s : State) : Host.Outcome State Fault Refusal := openPass w h c s

/-- PIXEL (R52). -/
def execPixel (bytes : List Byte) (s : State) : Host.Outcome State Fault Refusal := acceptPixel bytes s

/-- FINISH (R53). -/
def execFinish (s : State) : Host.Outcome State Fault Refusal := closePass s

/-- ENCODE (R54): START, one PIXEL for each complete group of IN, FINISH. It is refused as a whole where START is
(log 10). -/
def execEncode (w h : Word32) (c : Byte) (input : List Byte) (s : State) : Host.Outcome State Fault Refusal :=
  andThen (openPass w h c s) fun t => andThen (acceptPixels (pixelGroups c.toNat input) t) closePass

end Sys2Proof.Machine
end

