-- ==== Sys2Proof/Machine/Dispatch.lean ====
section
/-! DEFINITION. The meaning of every instruction: one arm for each constructor, each a direct call of the
instruction's own definition. -/
namespace Sys2Proof.Machine

def exec (i : Instr) (s : State) : Host.Outcome State Fault Refusal :=
  match i with
  -- bit_packer (43_bit_packer.md)
  | .index slot => Sys2Proof.Machine.execIndex slot s
  | .diff dr dg db => Sys2Proof.Machine.execDiff dr dg db s
  | .luma dg drg dbg => Sys2Proof.Machine.execLuma dg drg dbg s
  | .run n => Sys2Proof.Machine.execRun n s
  | .rgb r g b => Sys2Proof.Machine.execRgb r g b s
  | .rgba r g b a => Sys2Proof.Machine.execRgba r g b a s
  -- stream_formatter (44_stream_formatter.md)
  | .header w h c => Sys2Proof.Machine.execHeader w h c s
  | .endMark => Sys2Proof.Machine.execEndMark s
  -- host commands (40_encoder_top.md)
  | .start w h c => Sys2Proof.Machine.execStart w h c s
  | .pixel bytes => Sys2Proof.Machine.execPixel bytes s
  | .finish => Sys2Proof.Machine.execFinish s
  | .encode w h c input => Sys2Proof.Machine.execEncode w h c input s

end Sys2Proof.Machine
end

