-- ==== Sys2Proof/Machine/Fetch.lean ====
section
/-!
DEFINITION. Taking a transaction from the port (the model's own interface, logs 1 and 3): what it asks the block
to do.
-/
namespace Sys2Proof.Machine

/-- What a transaction asks for. -/
inductive Request where
  | reset
  | run (i : Instr)
  | truncated
deriving DecidableEq, Repr

/-- Read a transaction. An encoded element is decoded at the position its bytes would take in OUT: HEADER is
recognised only where OUT is empty (R44). One transaction is one element; bytes after it are ignored (log 3). -/
def requestOf (t : Transaction) (s : State) : Request :=
  match t with
  | .reset => .reset
  | .command i => .run i
  | .element bytes =>
    match decodeAt s.config.magic (s.out.size == 0) bytes with
    | .ok (i, _) => .run i
    | .error _ => .truncated

/-- Do what a transaction asks for, in the state it has been taken from. -/
def serve (r : Request) (s : State) : Host.Outcome State Fault Refusal :=
  match r with
  | .reset => .next (hardwareReset s)
  | .run i => exec i s
  | .truncated => .refused .truncatedElement

end Sys2Proof.Machine
end

