-- ==== Sys2Proof/Machine/Step.lean ====
section
/-!
DEFINITION. One step: take the oldest transaction from the port and do it (40_encoder_top.md R57). With nothing on
the port the block keeps all of its state (60_exceptions.md R100, log 8).
-/
namespace Sys2Proof.Machine

/-- One step of the block. -/
def step (s : State) : Host.Outcome State Fault Refusal :=
  match s.port with
  | [] => .next s
  | t :: rest => serve (requestOf t s) { s with port := rest }

/-- `s` with the element of a table word placed as the port's oldest transaction (log 1). -/
def State.withFetchWord (s : State) (nbits w : Nat) : State :=
  { s with port := .element (tableBytes nbits w) :: s.port }

end Sys2Proof.Machine
end

