-- ==== Sys2Proof/Safety.lean ====
section
/-!
DEFINITION. The terms the claims use: when a command is admitted, what an append to OUT leaves alone, the
invariants of the scan state and of the stream, and how many pixels a chunk stands for.
-/
namespace Sys2Proof.Machine

/-- `k` steps, stopping at the first refusal (the host's `Host.Core.run` of this machine, Laws/Commands.lean). -/
def runSteps : Nat → State → Host.Outcome State Fault Refusal
  | 0, s => .next s
  | k + 1, s => andThen (step s) (runSteps k)

/-! ### Admission -/

/-- When an instruction has a meaning: the phase table of R55, the operand contracts of R51, R52, R56, and the
field ranges of R58 for a chunk row. -/
def admits (i : Instr) (s : State) : Bool :=
  match i with
  | .index slot => (Instr.index slot).wellFormed
  | .diff dr dg db => (Instr.diff dr dg db).wellFormed
  | .luma dg drg dbg => (Instr.luma dg drg dbg).wellFormed
  | .run n => (Instr.run n).wellFormed
  | .rgb _ _ _ => true
  | .rgba _ _ _ _ => true
  | .header _ _ _ => true
  | .endMark => true
  | .start _ _ c => s.phase != .body && legalChannels c
  | .pixel bytes => s.phase == .body && bytes.length == s.channels.toNat
  | .finish => s.phase == .body
  | .encode _ _ c _ => s.phase != .body && legalChannels c

/-- The transactions the block's interface offers the host: its commands and reset (R50, R58, R102). -/
def Transaction.fromHost : Transaction → Bool
  | .reset => true
  | .command i => i.isHostCommand
  | .element _ => false

/-- Only host transactions wait on the port. -/
def hostDriven (s : State) : Prop := ∀ t ∈ s.port, t.fromHost = true

/-! ### What an append does -/

/-- `m'` is `m` with exactly `bytes` appended: they stand from address `m.size` on, every other address reads as
before, and past them no address exists (R24, R30). -/
structure OutGrows (bytes : List Byte) (m m' : Memory) : Prop where
  wf       : m'.wf
  contents : m'.bytes = m.bytes ++ bytes
  earlier  : ∀ a, a < m.size → m'.readByte a = m.readByte a
  written  : ∀ k, k < bytes.length → m'.readByte (m.size + k) = bytes[k]?
  past     : ∀ a, m.size + bytes.length ≤ a → m'.readByte a = none

/-- The byte of a RUN chunk by its layout (R41), 11 and then RL = run - 1 in six bits. -/
def runByte (run : BitVec 6) : Byte := 0b11#2 ++ (run - 1#6)

/-- The flush of step 2 as bytes (R69): nothing when no run is open. -/
def flushBytes (run : BitVec 6) : List Byte := if run = 0#6 then [] else [runByte run]

/-- The header of the pass a state is in (R44). -/
def passHeader (s : State) : List Byte :=
  s.config.magic.bytes ++ word32Bytes s.width ++ word32Bytes s.height ++ [s.channels, 0x00#8]

/-! ### Pixels a chunk stands for (R79) -/

/-- A RUN chunk stands for its length, every other chunk for one pixel. -/
def Chunk.pixels : Chunk → Nat
  | .run n => n
  | .index _ => 1
  | .diff _ _ _ => 1
  | .luma _ _ _ => 1
  | .rgb _ _ _ => 1
  | .rgba _ _ _ _ => 1

/-- The pixels a list of descriptors stands for. -/
def chunkPixels (ks : List Chunk) : Nat := (ks.map Chunk.pixels).sum

/-- The chunk kinds a pass can emit (R48): RGB only with 3 channels, RGBA only with 4. -/
def Chunk.allowedIn (channels : Byte) : Chunk → Bool
  | .run _ => true
  | .index _ => true
  | .diff _ _ _ => true
  | .luma _ _ _ => true
  | .rgb _ _ _ => channels == 3#8
  | .rgba _ _ _ _ => channels == 4#8

/-! ### Invariants -/

/-- What the scan state and OUT keep whatever the transaction: the legal range of `run` (R13), no open run outside a
pass (R14, R78), a legal channel count once a pass has been opened (R11), the opaque alpha of a 3-channel pass
(R9, R12), every slot empty or holding a pixel that hashes to it (R63, R64), and OUT in its one form (R24). -/
structure ScanInv (s : State) : Prop where
  runLegal  : s.run.toNat ≤ 62
  runClosed : s.phase ≠ .body → s.run = 0#6
  channels  : s.phase ≠ .idle → legalChannels s.channels = true
  prevAlpha : s.channels = 3#8 → s.prev.a = 255#8
  slotAlpha : s.channels = 3#8 → ∀ k : Slot, readSlot k s = Pixel.transparentBlack ∨ (readSlot k s).a = 255#8
  slotHome  : ∀ k : Slot, readSlot k s = Pixel.transparentBlack ∨ slot (readSlot k s) = k
  outWf     : s.out.wf

/-- The shape of OUT in a host-driven block (R19, R32, R90, R91): empty in IDLE, the header and a bounded body in
BODY, and header, body and terminator in DONE. A pixel costs at most one raw chunk, `CHANNELS + 1` bytes. -/
inductive StreamShape (s : State) : Prop where
  | idle (phase : s.phase = .idle) (out : s.out.bytes = []) : StreamShape s
  | body (body : List Byte) (phase : s.phase = .body) (out : s.out.bytes = passHeader s ++ body)
      (bound : body.length + (flushBytes s.run).length ≤ (s.channels.toNat + 1) * s.npix) : StreamShape s
  | done (body : List Byte) (phase : s.phase = .done) (out : s.out.bytes = passHeader s ++ body ++ endBytes)
      (bound : body.length ≤ (s.channels.toNat + 1) * s.npix) : StreamShape s

/-- The invariant of a host-driven block. -/
structure StreamInv (s : State) : Prop where
  scan  : ScanInv s
  host  : hostDriven s
  shape : StreamShape s

/-- A pass that a hardware counter of `COUNT_WIDTH` bits can count (92_eei_decisions.md D9). A claim about a chip
whose counter is that wide holds for states within it (log 6). -/
def withinCount (s : State) : Prop := s.npix < 2 ^ Config.countWidth

end Sys2Proof.Machine
end

