-- ==== Sys2Proof/Certificates/Slice0/Obligations.lean ====
section
/-!
DEFINITION. The statements for the provers. Each docstring names the rules of spec/ it formalises. A statement
about bytes 0 to 3 of OUT holds for every MAGIC: it names the state's own parameter.
-/
open Sys2Proof Sys2Proof.Machine

/-! ### Chunk rows (43_bit_packer.md) -/

/-- R81. INDEX appends its slot as one byte and writes nothing else; a slot past 63 is BAD_DESCRIPTOR. That it
runs in every phase is the model's choice (log 2). -/
def Obligations.IndexPacksItsSlot : Prop :=
  ∀ (k : Nat) (s : State),
    (k ≤ 63 → s.out.wf → ∃ t, exec (.index k) s = .next t ∧ t = { s with out := t.out } ∧
      OutGrows [BitVec.ofNat 8 k] s.out t.out) ∧
    (63 < k → exec (.index k) s = .refused .badDescriptor)

/-- R82. DIFF appends 0x40 | (dr+2) << 4 | (dg+2) << 2 | (db+2) and writes nothing else; a delta outside [-2, 1] is
BAD_DESCRIPTOR. The byte is written as a sum, which R7 says agrees with the OR. That it runs in every phase is the
model's choice (log 2). -/
def Obligations.DiffPacksBiasedDeltas : Prop :=
  ∀ (dr dg db : Int) (s : State),
    ((-2 ≤ dr ∧ dr ≤ 1) ∧ (-2 ≤ dg ∧ dg ≤ 1) ∧ (-2 ≤ db ∧ db ≤ 1) → s.out.wf →
      ∃ t, exec (.diff dr dg db) s = .next t ∧ t = { s with out := t.out } ∧
        OutGrows [BitVec.ofInt 8 (64 + (dr + 2) * 16 + (dg + 2) * 4 + (db + 2))] s.out t.out) ∧
    (¬ ((-2 ≤ dr ∧ dr ≤ 1) ∧ (-2 ≤ dg ∧ dg ≤ 1) ∧ (-2 ≤ db ∧ db ≤ 1)) →
      exec (.diff dr dg db) s = .refused .badDescriptor)

/-- R83. LUMA appends 0x80 | (dg+32) and (drg+8) << 4 | (dbg+8) and writes nothing else; a field outside its range
is BAD_DESCRIPTOR. The bytes are written as sums, which R7 says agree with the OR. That it runs in every phase is
the model's choice (log 2). -/
def Obligations.LumaPacksBiasedDeltas : Prop :=
  ∀ (dg drg dbg : Int) (s : State),
    ((-32 ≤ dg ∧ dg ≤ 31) ∧ (-8 ≤ drg ∧ drg ≤ 7) ∧ (-8 ≤ dbg ∧ dbg ≤ 7) → s.out.wf →
      ∃ t, exec (.luma dg drg dbg) s = .next t ∧ t = { s with out := t.out } ∧
        OutGrows [BitVec.ofInt 8 (128 + (dg + 32)), BitVec.ofInt 8 ((drg + 8) * 16 + (dbg + 8))]
          s.out t.out) ∧
    (¬ ((-32 ≤ dg ∧ dg ≤ 31) ∧ (-8 ≤ drg ∧ drg ≤ 7) ∧ (-8 ≤ dbg ∧ dbg ≤ 7)) →
      exec (.luma dg drg dbg) s = .refused .badDescriptor)

/-- R80. RUN appends 0xC0 | (n-1) and writes nothing else; a length outside [1, 62] is BAD_DESCRIPTOR. The byte is
written as a sum, which R7 says agrees with the OR. That it runs in every phase is the model's choice (log 2). -/
def Obligations.RunPacksLengthLessOne : Prop :=
  ∀ (n : Nat) (s : State),
    (1 ≤ n ∧ n ≤ 62 → s.out.wf → ∃ t, exec (.run n) s = .next t ∧ t = { s with out := t.out } ∧
      OutGrows [BitVec.ofNat 8 (192 + (n - 1))] s.out t.out) ∧
    (¬ (1 ≤ n ∧ n ≤ 62) → exec (.run n) s = .refused .badDescriptor)

/-- The formulas of R84 and R85. RGB and RGBA append their tag and the samples unchanged, and write nothing else.
(That a pass emits only one of the two is ChunksThatNeverOccur; that each row runs in every phase and for every value
of CHANNELS is the model's choice, log 2.) -/
def Obligations.RawChunksPackSamplesUnchanged : Prop :=
  ∀ (r g b a : Byte) (s : State), s.out.wf →
    (∃ t, exec (.rgb r g b) s = .next t ∧ t = { s with out := t.out } ∧
      OutGrows [0xFE, r, g, b] s.out t.out) ∧
    (∃ t, exec (.rgba r g b a) s = .next t ∧ t = { s with out := t.out } ∧
      OutGrows [0xFF, r, g, b, a] s.out t.out)

/-! ### Framing rows (44_stream_formatter.md) -/

/-- The formulas of R87 and R89. HEADER appends its 14 bytes and END its 8, and they write nothing else. That each
row runs in every phase is the model's choice (log 2), and so is that HEADER takes any channel byte, where R44 and R50
give 3 or 4 only (log 13). -/
def Obligations.FramingRowsAppendTheirBytes : Prop :=
  ∀ (w h : Word32) (c : Byte) (s : State), s.out.wf →
    (∃ t, exec (.header w h c) s = .next t ∧ t = { s with out := t.out } ∧
      OutGrows ([s.config.magic.m0, s.config.magic.m1, s.config.magic.m2, s.config.magic.m3] ++
        [w.extractLsb' 24 8, w.extractLsb' 16 8, w.extractLsb' 8 8, w.extractLsb' 0 8] ++
        [h.extractLsb' 24 8, h.extractLsb' 16 8, h.extractLsb' 8 8, h.extractLsb' 0 8] ++ [c, 0x00#8])
        s.out t.out) ∧
    (∃ t, exec .endMark s = .next t ∧ t = { s with out := t.out } ∧
      OutGrows [0, 0, 0, 0, 0, 0, 0, 1] s.out t.out)

/-! ### Host commands (40_encoder_top.md) -/

/-- R51 with R20. START outside an open pass, with 3 or 4 channels, sets every piece of state to the value of R20,
leaving exactly the header in OUT; the valid bits are among them where they are tracked. In an open pass it is refused
START_IN_PASS, and otherwise, with another channel count, BAD_CHANNELS. -/
def Obligations.StartOpensFreshPass : Prop :=
  ∀ (w h : Word32) (c : Byte) (s : State),
    (s.phase ≠ .body → (c = 3#8 ∨ c = 4#8) →
      ∃ t, exec (.start w h c) s = .next t ∧
        t = { prev := ⟨0#8, 0#8, 0#8, 255#8⟩, run := 0#6, cache := Vector.replicate 64 ⟨0#8, 0#8, 0#8, 0#8⟩,
              valid := t.valid, width := w, height := h, channels := c, phase := .body, npix := 0, out := t.out,
              config := s.config, port := s.port } ∧
        (s.config.cacheValidTracking = true → t.valid = Vector.replicate 64 false) ∧ t.colorspace = 0#8 ∧
        OutGrows (s.config.magic.bytes ++ word32Bytes w ++ word32Bytes h ++ [c, 0x00#8])
          { cells := [] } t.out) ∧
    (s.phase = .body → exec (.start w h c) s = .refused .startInPass) ∧
    (s.phase ≠ .body → ¬ (c = 3#8 ∨ c = 4#8) → exec (.start w h c) s = .refused .badChannels)

/-- R27 and the fixed positions of R32. After START, OUT holds MAGIC at addresses 0 to 3, the width at 4 to 7 and the
height at 8 to 11, most significant byte first, CHANNELS at 12 and 0 at 13, and nothing from 14 on. -/
def Obligations.HeaderBytesStandAtTheirAddresses : Prop :=
  ∀ (w h : Word32) (c : Byte) (s t : State), exec (.start w h c) s = .next t →
    t.out.readByte 0 = some s.config.magic.m0 ∧ t.out.readByte 1 = some s.config.magic.m1 ∧
    t.out.readByte 2 = some s.config.magic.m2 ∧ t.out.readByte 3 = some s.config.magic.m3 ∧
    (∀ k, k < 4 → ∃ b, t.out.readByte (4 + k) = some b ∧ b.toNat = w.toNat / 2 ^ (8 * (3 - k)) % 256) ∧
    (∀ k, k < 4 → ∃ b, t.out.readByte (8 + k) = some b ∧ b.toNat = h.toNat / 2 ^ (8 * (3 - k)) % 256) ∧
    t.out.readByte 12 = some c ∧ t.out.readByte 13 = some 0 ∧ ∀ a, 14 ≤ a → t.out.readByte a = none

/-- R53 with R78. FINISH in an open pass appends the run still open, if there is one, then the terminator, clears
`run` and sets DONE; it writes nothing else. Outside a pass it is refused FINISH_OUTSIDE_PASS. -/
def Obligations.FinishFlushesAndTerminates : Prop :=
  ∀ s : State,
    (s.phase = .body → s.run.toNat ≤ 62 → s.out.wf →
      ∃ t, exec .finish s = .next t ∧ t = { s with run := 0#6, phase := .done, out := t.out } ∧
        OutGrows ((if s.run = 0#6 then [] else [BitVec.ofNat 8 (192 + (s.run.toNat - 1))]) ++
          [0, 0, 0, 0, 0, 0, 0, 1]) s.out t.out) ∧
    (s.phase ≠ .body → exec .finish s = .refused .finishOutsidePass)

/-- R68. A PIXEL that equals `prev` while `run < 62` counts into the run and emits nothing. -/
def Obligations.PixelEqualToPrevContinuesRun : Prop :=
  ∀ (bytes : List Byte) (px : Pixel) (s : State), s.phase = .body → bytes.length = s.channels.toNat →
    logicalPixel s.channels bytes = some px → px = s.prev → s.run.toNat < 62 →
    ∃ t, exec (.pixel bytes) s = .next t ∧ t = { s with run := s.run + 1#6, npix := s.npix + 1 } ∧
      t.run.toNat = s.run.toNat + 1

/-- R69. A PIXEL that finds a run open and does not continue it emits the RUN chunk first. If it still equals `prev`
(the 62 limit) it starts a new run of length 1 and does nothing else; otherwise `run` is cleared and the pixel's own
chunk follows. -/
def Obligations.OpenRunIsFlushedFirst : Prop :=
  ∀ (bytes : List Byte) (px : Pixel) (s : State), s.phase = .body → bytes.length = s.channels.toNat →
    logicalPixel s.channels bytes = some px → s.out.wf → s.run ≠ 0#6 → s.run.toNat ≤ 62 →
    (px = s.prev → s.run.toNat = 62 →
      ∃ t, exec (.pixel bytes) s = .next t ∧ t = { s with run := 1#6, npix := s.npix + 1, out := t.out } ∧
        OutGrows [0xFD] s.out t.out) ∧
    (px ≠ s.prev →
      ∃ t own, exec (.pixel bytes) s = .next t ∧ t.run = 0#6 ∧ own ≠ [] ∧
        OutGrows (BitVec.ofNat 8 (192 + (s.run.toNat - 1)) :: own) s.out t.out ∧
        ∃ u, exec (.pixel bytes) { s with run := 0#6 } = .next u ∧ u = { t with out := u.out } ∧
          OutGrows own s.out u.out)

/-- R70. A PIXEL that differs from `prev` and whose slot holds it (with its valid bit, where those are tracked) emits,
after the flush, one INDEX byte, and sets `prev`; the cache is not written. -/
def Obligations.CachedPixelEmitsIndex : Prop :=
  ∀ (bytes : List Byte) (px : Pixel) (s : State), s.phase = .body → bytes.length = s.channels.toNat →
    logicalPixel s.channels bytes = some px → s.out.wf → s.run.toNat ≤ 62 → px ≠ s.prev →
    readSlot (slot px) s = px → (s.config.cacheValidTracking = true → readValid (slot px) s = true) →
    ∃ t, exec (.pixel bytes) s = .next t ∧
      t = { s with prev := px, run := 0#6, npix := s.npix + 1, out := t.out } ∧
      OutGrows (flushBytes s.run ++ [BitVec.ofNat 8 (slot px)]) s.out t.out

/-- R72 with R71. A PIXEL that differs from `prev`, misses the cache, and whose three wraparound deltas lie in [-2, 1],
emits DIFF after the flush; `prev` and its slot take the pixel. The byte is the layout of R39. -/
def Obligations.SmallDeltasEmitDiff : Prop :=
  ∀ (bytes : List Byte) (px : Pixel) (s : State) (dr dg db : Int), s.phase = .body →
    bytes.length = s.channels.toNat → logicalPixel s.channels bytes = some px → s.out.wf →
    s.run.toNat ≤ 62 → px ≠ s.prev → (cacheLookup px s).2 = false →
    dr = wsub8 px.r s.prev.r → dg = wsub8 px.g s.prev.g → db = wsub8 px.b s.prev.b →
    -2 ≤ dr ∧ dr ≤ 1 → -2 ≤ dg ∧ dg ≤ 1 → -2 ≤ db ∧ db ≤ 1 →
    ∃ t, exec (.pixel bytes) s = .next t ∧
      t = { s with
            prev := px, run := 0#6, cache := s.cache.set (slot px) px,
            valid := if s.config.cacheValidTracking then s.valid.set (slot px) true else s.valid,
            npix := s.npix + 1, out := t.out } ∧
      OutGrows (flushBytes s.run ++
        [0b01#2 ++ BitVec.ofInt 2 (dr + 2) ++ BitVec.ofInt 2 (dg + 2) ++ BitVec.ofInt 2 (db + 2)])
        s.out t.out

/-- R73 with R71. A PIXEL that differs from `prev`, misses the cache, is no DIFF, and whose green delta lies in
[-32, 31] with red and blue within [-8, 7] of it, emits LUMA after the flush; `prev` and its slot take the pixel. The
bytes are the layout of R40. -/
def Obligations.LumaDeltasEmitLuma : Prop :=
  ∀ (bytes : List Byte) (px : Pixel) (s : State) (dr dg db : Int), s.phase = .body →
    bytes.length = s.channels.toNat → logicalPixel s.channels bytes = some px → s.out.wf →
    s.run.toNat ≤ 62 → px ≠ s.prev → (cacheLookup px s).2 = false →
    dr = wsub8 px.r s.prev.r → dg = wsub8 px.g s.prev.g → db = wsub8 px.b s.prev.b →
    ¬ ((-2 ≤ dr ∧ dr ≤ 1) ∧ (-2 ≤ dg ∧ dg ≤ 1) ∧ (-2 ≤ db ∧ db ≤ 1)) →
    -32 ≤ dg ∧ dg ≤ 31 → -8 ≤ s8 (dr - dg) ∧ s8 (dr - dg) ≤ 7 → -8 ≤ s8 (db - dg) ∧ s8 (db - dg) ≤ 7 →
    ∃ t, exec (.pixel bytes) s = .next t ∧
      t = { s with
            prev := px, run := 0#6, cache := s.cache.set (slot px) px,
            valid := if s.config.cacheValidTracking then s.valid.set (slot px) true else s.valid,
            npix := s.npix + 1, out := t.out } ∧
      OutGrows (flushBytes s.run ++
        [0b10#2 ++ BitVec.ofInt 6 (dg + 32),
         BitVec.ofInt 4 (s8 (dr - dg) + 8) ++ BitVec.ofInt 4 (s8 (db - dg) + 8)]) s.out t.out

/-- R74. A PIXEL that differs from `prev`, misses the cache, and is neither DIFF nor LUMA emits, after the flush, RGB in
a 3-channel pass and RGBA otherwise; `prev` and its slot take the pixel. -/
def Obligations.OtherPixelsEmitRawColour : Prop :=
  ∀ (bytes : List Byte) (px : Pixel) (s : State) (dr dg db : Int), s.phase = .body →
    bytes.length = s.channels.toNat → logicalPixel s.channels bytes = some px → s.out.wf →
    s.run.toNat ≤ 62 → px ≠ s.prev → (cacheLookup px s).2 = false →
    dr = wsub8 px.r s.prev.r → dg = wsub8 px.g s.prev.g → db = wsub8 px.b s.prev.b →
    ¬ ((-2 ≤ dr ∧ dr ≤ 1) ∧ (-2 ≤ dg ∧ dg ≤ 1) ∧ (-2 ≤ db ∧ db ≤ 1)) →
    ¬ ((-32 ≤ dg ∧ dg ≤ 31) ∧ (-8 ≤ s8 (dr - dg) ∧ s8 (dr - dg) ≤ 7) ∧
        (-8 ≤ s8 (db - dg) ∧ s8 (db - dg) ≤ 7)) →
    ∃ t, exec (.pixel bytes) s = .next t ∧
      t = { s with
            prev := px, run := 0#6, cache := s.cache.set (slot px) px,
            valid := if s.config.cacheValidTracking then s.valid.set (slot px) true else s.valid,
            npix := s.npix + 1, out := t.out } ∧
      OutGrows (flushBytes s.run ++
        (if s.channels = 3#8 then [0xFE, px.r, px.g, px.b] else [0xFF, px.r, px.g, px.b, px.a])) s.out t.out

/-- R56 and the PIXEL column of R55, with the order of R96. A PIXEL outside a pass is refused PIXEL_OUTSIDE_PASS whatever
its bytes; in a pass, with any other count than CHANNELS, it is refused PIXEL_SIZE. -/
def Obligations.PixelRefusalsPhaseBeforeSize : Prop :=
  ∀ (bytes : List Byte) (s : State),
    (s.phase ≠ .body → exec (.pixel bytes) s = .refused .pixelOutsidePass) ∧
    (s.phase = .body → bytes.length ≠ s.channels.toNat → exec (.pixel bytes) s = .refused .pixelSize)

/-- R55 and R93. An instruction answers a next state exactly when it is admitted: the phase table of R55, the operand
contracts of R51, R52 and R56, the field ranges of R58. Two clauses are the model's choices and no rule's: a chunk
or framing row is admitted in every phase and for every value of CHANNELS (log 2), and HEADER with any channel byte
(log 13). The premise is the invariant of ScanInvariantKeptByEveryStep. -/
def Obligations.ExecCompletesExactlyWhenAdmitted : Prop :=
  ∀ (i : Instr) (s : State), ScanInv s → ((∃ t, exec i s = .next t) ↔ admits i s = true)

/-! ### The buffer form (R54) -/

/-- R54. ENCODE is START, one PIXEL for each complete group of IN at its address i*c, and FINISH: with these commands
on an otherwise empty port, the block's steps end as ENCODE does, refusal included. The port is the model's own (log
1), and ENCODE is one step of its own (log 10). -/
def Obligations.EncodeIsStartPixelsFinish : Prop :=
  ∀ (w h : Word32) (c : Byte) (input : List Byte) (s : State),
    runSteps (input.length / c.toNat + 2)
      { s with port := [.command (.start w h c)] ++
          ((List.range (input.length / c.toNat)).map fun i =>
            .command (.pixel ((input.drop (i * c.toNat)).take c.toNat))) ++ [.command .finish] }
    = exec (.encode w h c input) { s with port := [] }

/-- R90 and the first bounds of R91. ENCODE outside an open pass, with 3 or 4 channels, completes for every IN: OUT is
the header, a body of at most CHANNELS + 1 bytes a pixel, and the terminator; the pixels counted are L div c, whatever
the width and height (R26, R59). -/
def Obligations.EncodeWritesWholeStream : Prop :=
  ∀ (w h : Word32) (c : Byte) (input : List Byte) (s : State), s.phase ≠ .body → (c = 3#8 ∨ c = 4#8) →
    ∃ t body, exec (.encode w h c input) s = .next t ∧ t.phase = .done ∧ t.run = 0#6 ∧
      t.npix = input.length / c.toNat ∧ t.width = w ∧ t.height = h ∧ t.channels = c ∧
      t.config = s.config ∧ t.port = s.port ∧
      OutGrows (s.config.magic.bytes ++ word32Bytes w ++ word32Bytes h ++ [c, 0x00#8] ++ body ++
        [0, 0, 0, 0, 0, 0, 0, 1]) { cells := [] } t.out ∧
      body.length ≤ (c.toNat + 1) * (input.length / c.toNat)

/-- R79 and R90, with the reading of END that log 3 chose among those of R49. The stream of ENCODE reads back,
element by element, as its header, the chunks it emitted, each well formed, and END, although END begins with the bytes
of INDEX 0; the pixels the chunks stand for are exactly the pixels of IN. -/
def Obligations.EncodedStreamReadsBackAsItsChunks : Prop :=
  ∀ (w h : Word32) (c : Byte) (input : List Byte) (s t : State),
    exec (.encode w h c input) s = .next t →
    ∃ ks : List Chunk,
      decodeStream s.config.magic t.out.bytes =
        .ok (.header w h c :: (ks.map Chunk.instr ++ [.endMark])) ∧
      (∀ k ∈ ks, k.instr.wellFormed = true ∧ k.allowedIn c = true) ∧
      chunkPixels ks = input.length / c.toNat

/-- R26. The trailing partial group is never read: IN cut back to its complete groups gives the same result. -/
def Obligations.EncodeDropsTrailingGroup : Prop :=
  ∀ (w h : Word32) (c : Byte) (input : List Byte) (s : State),
    exec (.encode w h c input) s =
      exec (.encode w h c (input.take (input.length / c.toNat * c.toNat))) s

/-- R54, refusals. ENCODE is refused exactly as START is, and where START is admitted it completes. -/
def Obligations.EncodeRefusedExactlyAsStart : Prop :=
  ∀ (w h : Word32) (c : Byte) (input : List Byte) (s : State),
    (∀ r, exec (.encode w h c input) s = .refused r ↔ exec (.start w h c) s = .refused r) ∧
    ((∃ t, exec (.encode w h c input) s = .next t) ↔ ∃ t, exec (.start w h c) s = .next t)

/-- R22 and R103. No state survives from one pass to the next: whatever the block did before, START and ENCODE leave the
same state, given the same parameters and the same pending transactions. -/
def Obligations.NoStateSurvivesIntoNextPass : Prop :=
  ∀ (w h : Word32) (c : Byte) (input : List Byte) (s s' : State), s.phase ≠ .body → s'.phase ≠ .body →
    s.config = s'.config → s.port = s'.port →
    exec (.start w h c) s = exec (.start w h c) s' ∧
    exec (.encode w h c input) s = exec (.encode w h c input) s'

/-- R91, last sentence. N ≥ 1 opaque black pixels give a body of ⌈N/62⌉ RUN chunks: all but the last of length 62, the
last of the remaining length. -/
def Obligations.OpaqueBlackImageIsRunsOnly : Prop :=
  ∀ (w h : Word32) (c : Byte) (n : Nat) (s : State), s.phase ≠ .body → (c = 3#8 ∨ c = 4#8) → 1 ≤ n →
    ∃ t, exec (.encode w h c (List.replicate n (if c = 3#8 then [0, 0, 0] else [0, 0, 0, 255])).flatten) s = .next t ∧
      t.out.bytes = passHeader t ++ List.replicate ((n - 1) / 62) 0xFD ++
        [BitVec.ofNat 8 (192 + (n - 1) % 62)] ++ [0, 0, 0, 0, 0, 0, 0, 1] ∧
      t.npix = n ∧ t.prev = ⟨0#8, 0#8, 0#8, 255#8⟩ ∧ t.cache = Vector.replicate 64 ⟨0#8, 0#8, 0#8, 0#8⟩

/-! ### Whole-machine rules -/

/-- R14 and R75 with R17, over every pass: after START and any sequence of admitted PIXELs, `prev` is the last pixel
accepted ((0,0,0,255) if there is none), the last `run` pixels accepted equal `prev`, and `npix` counts the pixels.
The pixels wait on the model's own port (log 1). -/
def Obligations.PrevAndRunFollowAcceptedPixels : Prop :=
  ∀ (w h : Word32) (c : Byte) (ps : List (List Byte)) (s t u : State),
    exec (.start w h c) s = .next t →
    runSteps ps.length { t with port := ps.map fun p => .command (.pixel p) } = .next u →
    ∃ pxs : List Pixel, ps.map (logicalPixel c) = pxs.map some ∧
      u.prev = pxs.getLast?.getD ⟨0#8, 0#8, 0#8, 255#8⟩ ∧ u.run.toNat ≤ pxs.length ∧
      (∀ px ∈ pxs.drop (pxs.length - u.run.toNat), px = u.prev) ∧ u.npix = pxs.length

/-- An invariant every step keeps, whatever stands on the port: `run` stays in 0..62 (R13) and is 0 outside a pass
(R78), CHANNELS is 3 or 4 once a pass has been opened (R11), alpha stays 255 in a 3-channel pass (R12, R9), every slot
is empty or holds a pixel that hashes to it (R63, R64), and OUT keeps its one form (R24, R30). -/
def Obligations.ScanInvariantKeptByEveryStep : Prop :=
  ∀ s t : State, ScanInv s → step s = .next t → ScanInv t

/-- The shape of OUT in a host-driven block (R19, R32, R90, R91): every step keeps it. -/
def Obligations.StreamInvariantKeptByEveryHostStep : Prop :=
  ∀ s t : State, StreamInv s → step s = .next t → StreamInv t

/-- The values of R21 (a decision of the spec's own, D10, log 18) and both invariants, in the model's reset state. MAGIC
and CACHE_VALID_TRACKING have their defaults there (logs 4 and 5) and the port is empty (log 1); nothing here rests on
that. -/
def Obligations.ResetMeetsInvariants : Prop :=
  StreamInv State.reset ∧ State.reset.phase = .idle ∧ State.reset.prev = ⟨0#8, 0#8, 0#8, 255#8⟩ ∧
    State.reset.run = 0#6 ∧ State.reset.cache = Vector.replicate 64 ⟨0#8, 0#8, 0#8, 0#8⟩ ∧
    State.reset.valid = Vector.replicate 64 false ∧ State.reset.width = 0#32 ∧ State.reset.height = 0#32 ∧
    State.reset.channels = 0#8 ∧ State.reset.colorspace = 0#8 ∧ State.reset.npix = 0 ∧
    State.reset.out = { cells := [] }

/-- R102 with R21. A hardware reset, in any phase, gives every piece of state its value of R21; an open pass is lost, its
partial stream discarded and no terminator written. That the parameters and the transactions behind it on the port stay
is log 12. -/
def Obligations.HardwareResetDiscardsPass : Prop :=
  ∀ (s : State) (rest : List Transaction), s.port = .reset :: rest →
    ∃ t, step s = .next t ∧
      t = { prev := ⟨0#8, 0#8, 0#8, 255#8⟩, run := 0#6, cache := Vector.replicate 64 ⟨0#8, 0#8, 0#8, 0#8⟩,
            valid := Vector.replicate 64 false, width := 0#32, height := 0#32, channels := 0#8, phase := .idle,
            npix := 0, out := { cells := [] }, config := s.config, port := rest }

/-- The step (R57) over the model's own port (logs 1, 3, 8): a command on the port runs as exec runs it in the state it
has been taken from; so does the instruction an encoded element decodes to; with nothing on the port nothing changes. -/
def Obligations.StepRunsTheFetchedInstruction : Prop :=
  ∀ (s : State) (rest : List Transaction),
    (∀ i, s.port = .command i :: rest → step s = exec i { s with port := rest }) ∧
    (∀ bytes i tail, s.port = .element bytes :: rest → s.out.size ≠ 0 →
      decodeElement bytes = .ok (i, tail) → step s = exec i { s with port := rest }) ∧
    (∀ bytes i tail, s.port = .element bytes :: rest → s.out.size = 0 →
      decodeHeader s.config.magic bytes = .ok (i, tail) → step s = exec i { s with port := rest }) ∧
    (∀ bytes i tail e, s.port = .element bytes :: rest → s.out.size = 0 →
      decodeHeader s.config.magic bytes = .error e → decodeElement bytes = .ok (i, tail) →
      step s = exec i { s with port := rest }) ∧
    (s.port = [] → step s = .next s)

/-- R30. No instruction but START and ENCODE, which begin a new OUT, ever changes or removes a byte of OUT: it appends at
most 14 bytes (PIXEL at most 6, FINISH at most 9). -/
def Obligations.OutIsAppendOnly : Prop :=
  ∀ (i : Instr) (s t : State), s.out.wf → exec i s = .next t →
    (∀ w h c, i ≠ .start w h c) → (∀ w h c input, i ≠ .encode w h c input) →
    ∃ bytes, bytes.length ≤ 14 ∧ OutGrows bytes s.out t.out ∧
      (∀ p, i = .pixel p → bytes.length ≤ 6) ∧ (i = .finish → bytes.length ≤ 9)

/-- R18 with R55. The pass registers and the phase: WIDTH, HEIGHT and CHANNELS change only by START and ENCODE, the phase
only by START, ENCODE and FINISH, and no instruction changes the parameters or the port. -/
def Obligations.PassRegistersChangeOnlyByStart : Prop :=
  ∀ (i : Instr) (s t : State), exec i s = .next t →
    t.config = s.config ∧ t.port = s.port ∧
    ((∀ w h c, i ≠ .start w h c) → (∀ w h c input, i ≠ .encode w h c input) →
      t.width = s.width ∧ t.height = s.height ∧ t.channels = s.channels ∧
      (i ≠ .finish → t.phase = s.phase))

/-- R89, last sentence, for a host-driven block. Once a pass is DONE, no host transaction but START, ENCODE and a reset
leaves a state at all, so nothing is appended after the terminator until the next START. -/
def Obligations.NothingFollowsTheTerminator : Prop :=
  ∀ s t : State, s.phase = .done → hostDriven s → step s = .next t →
    t.out = s.out ∨ (∃ rest, s.port = .reset :: rest) ∨
    (∃ w h c rest, s.port = .command (.start w h c) :: rest) ∨
    ∃ w h c input rest, s.port = .command (.encode w h c input) :: rest

/-- R79. A pixel emits at most two chunks and 6 bytes, and every pixel is accounted for: the pixels the emitted chunks
stand for, with those still in the run, are those that were in the run and this one. -/
def Obligations.EveryPixelIsAccountedFor : Prop :=
  ∀ (px : Pixel) (s : State), s.run.toNat ≤ 62 →
    (classify px s).1.length ≤ 2 ∧ ((classify px s).1.flatMap packFields).length ≤ 6 ∧
    chunkPixels (classify px s).1 + (classify px s).2.run.toNat = s.run.toNat + 1

/-- R48 and the corners of R47. A 3-channel pass never emits RGBA nor DIFF 0, 0, 0, a 4-channel pass never RGB, and no
LUMA chunk has all three deltas in [-2, 1]. -/
def Obligations.ChunksThatNeverOccur : Prop :=
  ∀ (bytes : List Byte) (px : Pixel) (s : State), ScanInv s → logicalPixel s.channels bytes = some px →
    ∀ k ∈ (classify px s).1,
      (s.channels = 3#8 → (∀ r g b a, k ≠ .rgba r g b a) ∧ k ≠ .diff 0 0 0) ∧
      (s.channels = 4#8 → ∀ r g b, k ≠ .rgb r g b) ∧
      ∀ dg drg dbg, k = .luma dg drg dbg →
        ¬ ((-2 ≤ dg ∧ dg ≤ 1) ∧ (-2 ≤ dg + drg ∧ dg + drg ≤ 1) ∧ (-2 ≤ dg + dbg ∧ dg + dbg ≤ 1))

/-- R105 with R64. The cache carries a colour to a later pixel. After a pixel p (not equal to `prev`) and a different
pixel q, p is looked up again: if q has another slot, p hits and the stream ends with INDEX Slot(p); if q has the same
slot, q has evicted p and p misses. -/
def Obligations.CacheCarriesColoursToLaterPixels : Prop :=
  ∀ (bp bq : List Byte) (p q : Pixel) (s t u : State), s.out.wf →
    logicalPixel s.channels bp = some p → logicalPixel s.channels bq = some q → p ≠ s.prev → q ≠ p →
    exec (.pixel bp) s = .next t → exec (.pixel bq) t = .next u →
    (slot q ≠ slot p → ∃ v, exec (.pixel bp) u = .next v ∧ OutGrows [BitVec.ofNat 8 (slot p)] u.out v.out ∧
      v.prev = p ∧ v.cache = u.cache) ∧
    (slot q = slot p → (cacheLookup p u).2 = false ∧ readSlot (slot p) u = q)

/-! ### Arithmetic of the classifier -/

/-- R8. `wsub8` is wraparound subtraction: the one number in [-128, 127] that, added to the previous sample in eight
bits, gives the current one. -/
def Obligations.WraparoundDifferenceIsUnique : Prop :=
  ∀ (a b : Byte) (d : Int), -128 ≤ d → d ≤ 127 → (wsub8 a b = d ↔ a = b + BitVec.ofInt 8 d)

/-- R60 with R61. The hash is at most 6630, and the slot is the low six bits of the sum computed in six bits. -/
def Obligations.SlotNeedsOnlySixBits : Prop :=
  ∀ px : Pixel, pixelHash px ≤ 6630 ∧
    BitVec.ofNat 6 (slot px) =
      px.r.setWidth 6 * 3 + px.g.setWidth 6 * 5 + px.b.setWidth 6 * 7 + px.a.setWidth 6 * 11

/-- R77. The luma test does not depend on the wraparound of dr - dg and db - dg. -/
def Obligations.LumaTestNeedsNoWraparound : Prop :=
  ∀ px prev : Pixel,
    (lumaEligible (deltas px prev) = true ↔
      (-32 ≤ wsub8 px.g prev.g ∧ wsub8 px.g prev.g ≤ 31) ∧
      (-8 ≤ wsub8 px.r prev.r - wsub8 px.g prev.g ∧ wsub8 px.r prev.r - wsub8 px.g prev.g ≤ 7) ∧
      (-8 ≤ wsub8 px.b prev.b - wsub8 px.g prev.g ∧ wsub8 px.b prev.b - wsub8 px.g prev.g ≤ 7)) ∧
    (lumaEligible (deltas px prev) = true →
      lumaRed (deltas px prev) = wsub8 px.r prev.r - wsub8 px.g prev.g ∧
      lumaBlue (deltas px prev) = wsub8 px.b prev.b - wsub8 px.g prev.g)

/-- R65 with R62. The sentinel hazard: where a slot still holds (0,0,0,0), the only pixel that can hit it is (0,0,0,0)
at slot 0; just after START that pixel hits exactly when CACHE_VALID_TRACKING is off, and nothing else hits; and no
pixel of a 3-channel pass does. -/
def Obligations.OnlyTransparentBlackHitsFreshSlot : Prop :=
  (∀ (px : Pixel) (s : State), (cacheLookup px s).2 = true → readSlot (slot px) s = ⟨0#8, 0#8, 0#8, 0#8⟩ →
    px = ⟨0#8, 0#8, 0#8, 0#8⟩ ∧ slot px = 0) ∧
  (∀ (w h : Word32) (c : Byte) (px : Pixel) (s t : State), exec (.start w h c) s = .next t →
    ((cacheLookup px t).2 = true ↔ s.config.cacheValidTracking = false ∧ px = ⟨0#8, 0#8, 0#8, 0#8⟩)) ∧
  ∀ (bytes : List Byte) (px : Pixel), logicalPixel 3#8 bytes = some px → px ≠ ⟨0#8, 0#8, 0#8, 0#8⟩

/-! ### Encodings (30_encoding.md) -/

/-- R47. The first-byte map: each of the 256 values falls under the kind and length of its range, so none is
unassigned. -/
def Obligations.FirstByteMapCoversAllBytes : Prop :=
  ∀ b : Byte, ∃ row, kindRow? b = some row ∧
    (b.toNat ≤ 0x3F → row.kind = .index ∧ row.length = 1) ∧
    (0x40 ≤ b.toNat ∧ b.toNat ≤ 0x7F → row.kind = .diff ∧ row.length = 1) ∧
    (0x80 ≤ b.toNat ∧ b.toNat ≤ 0xBF → row.kind = .luma ∧ row.length = 2) ∧
    (0xC0 ≤ b.toNat ∧ b.toNat ≤ 0xFD → row.kind = .run ∧ row.length = 1) ∧
    (b.toNat = 0xFE → row.kind = .rgb ∧ row.length = 4) ∧
    (b.toNat = 0xFF → row.kind = .rgba ∧ row.length = 5)

/-- Decoding what the encoder writes gives the instruction back, with every operand, and leaves the bytes after it: for
every well-formed chunk, for END, and for HEADER at the start of a stream. A chunk followed by bytes that complete the
8-byte pattern of END reads as END (log 3), so the element decoder is stated where they do not. -/
def Obligations.DecodeEncodeRoundTrip : Prop :=
  ∀ (magic : Magic) (i : Instr) (bytes rest : List Byte), i.wellFormed = true → encode magic i = some bytes →
    (i.isChunk = true → decodeChunk (bytes ++ rest) = .ok (i, rest) ∧
      ((bytes ++ rest).take 8 ≠ endBytes → decodeElement (bytes ++ rest) = .ok (i, rest))) ∧
    (i = .endMark → decodeElement (bytes ++ rest) = .ok (i, rest)) ∧
    (∀ w h c, i = .header w h c → decodeAt magic true (bytes ++ rest) = .ok (i, rest))

/-- Every chunk the decoder reads is a well-formed chunk, and encoding it gives back exactly the bytes that were read: no
bit of a chunk is dropped and no two words have one meaning. -/
def Obligations.EncodeDecodeRoundTrip : Prop :=
  ∀ (magic : Magic) (bytes rest : List Byte) (i : Instr), decodeChunk bytes = .ok (i, rest) →
    i.wellFormed = true ∧ i.isChunk = true ∧ ∃ front, encode magic i = some front ∧ bytes = front ++ rest

/-- The packing formulas of R80 to R85 write the bit layouts of R38 to R43, and the packer refuses exactly the
descriptors out of range. -/
def Obligations.PackingFormulasFollowTheLayouts : Prop :=
  ∀ (magic : Magic) (k : Chunk), pack k = if k.instr.wellFormed then encode magic k.instr else none

/-- Words written out from the layouts of R38 to R43 and R45, and the instructions they stand for. That the last word
reads as END and not as INDEX 0, which R49 leaves open, is the model's choice (log 3). -/
def Obligations.SampleWordsDecode : Prop :=
  decodeElement [0b00001001] = .ok (.index 9, []) ∧
  decodeElement [0b01111001] = .ok (.diff 1 0 (-1), []) ∧
  decodeElement [0b10110100, 0b11010011] = .ok (.luma 20 5 (-5), []) ∧
  decodeElement [0b11111101] = .ok (.run 62, []) ∧
  decodeElement [0b11111110, 0x0A, 0x14, 0x1E] = .ok (.rgb 10 20 30, []) ∧
  decodeElement [0b11111111, 0xC8, 0x64, 0x32, 0x80] = .ok (.rgba 200 100 50 128, []) ∧
  decodeElement [0, 0, 0, 0, 0, 0, 0, 1] = .ok (.endMark, [])
end

