-- ==== Sys2Proof/Laws/State.lean ====
section
/-!
SUPPORT. What each shared operation on the state does to each field, so that no later proof unfolds a record
update.
-/
namespace Sys2Proof.Machine

/-! ### emit -/

@[simp] theorem emit_prev (bs : List Byte) (s : State) : (emit bs s).prev = s.prev := rfl
@[simp] theorem emit_run (bs : List Byte) (s : State) : (emit bs s).run = s.run := rfl
@[simp] theorem emit_cache (bs : List Byte) (s : State) : (emit bs s).cache = s.cache := rfl
@[simp] theorem emit_valid (bs : List Byte) (s : State) : (emit bs s).valid = s.valid := rfl
@[simp] theorem emit_width (bs : List Byte) (s : State) : (emit bs s).width = s.width := rfl
@[simp] theorem emit_height (bs : List Byte) (s : State) : (emit bs s).height = s.height := rfl
@[simp] theorem emit_channels (bs : List Byte) (s : State) : (emit bs s).channels = s.channels := rfl
@[simp] theorem emit_phase (bs : List Byte) (s : State) : (emit bs s).phase = s.phase := rfl
@[simp] theorem emit_npix (bs : List Byte) (s : State) : (emit bs s).npix = s.npix := rfl
@[simp] theorem emit_out (bs : List Byte) (s : State) : (emit bs s).out = s.out.append bs := rfl
@[simp] theorem emit_config (bs : List Byte) (s : State) : (emit bs s).config = s.config := rfl
@[simp] theorem emit_port (bs : List Byte) (s : State) : (emit bs s).port = s.port := rfl

/-! ### setPrev -/

@[simp] theorem setPrev_prev (px : Pixel) (s : State) : (setPrev px s).prev = px := rfl
@[simp] theorem setPrev_run (px : Pixel) (s : State) : (setPrev px s).run = s.run := rfl
@[simp] theorem setPrev_cache (px : Pixel) (s : State) : (setPrev px s).cache = s.cache := rfl
@[simp] theorem setPrev_valid (px : Pixel) (s : State) : (setPrev px s).valid = s.valid := rfl
@[simp] theorem setPrev_width (px : Pixel) (s : State) : (setPrev px s).width = s.width := rfl
@[simp] theorem setPrev_height (px : Pixel) (s : State) : (setPrev px s).height = s.height := rfl
@[simp] theorem setPrev_channels (px : Pixel) (s : State) : (setPrev px s).channels = s.channels := rfl
@[simp] theorem setPrev_phase (px : Pixel) (s : State) : (setPrev px s).phase = s.phase := rfl
@[simp] theorem setPrev_npix (px : Pixel) (s : State) : (setPrev px s).npix = s.npix := rfl
@[simp] theorem setPrev_out (px : Pixel) (s : State) : (setPrev px s).out = s.out := rfl
@[simp] theorem setPrev_config (px : Pixel) (s : State) : (setPrev px s).config = s.config := rfl
@[simp] theorem setPrev_port (px : Pixel) (s : State) : (setPrev px s).port = s.port := rfl

/-! ### setRun -/

@[simp] theorem setRun_prev (n : BitVec 6) (s : State) : (setRun n s).prev = s.prev := rfl
@[simp] theorem setRun_run (n : BitVec 6) (s : State) : (setRun n s).run = n := rfl
@[simp] theorem setRun_cache (n : BitVec 6) (s : State) : (setRun n s).cache = s.cache := rfl
@[simp] theorem setRun_valid (n : BitVec 6) (s : State) : (setRun n s).valid = s.valid := rfl
@[simp] theorem setRun_width (n : BitVec 6) (s : State) : (setRun n s).width = s.width := rfl
@[simp] theorem setRun_height (n : BitVec 6) (s : State) : (setRun n s).height = s.height := rfl
@[simp] theorem setRun_channels (n : BitVec 6) (s : State) : (setRun n s).channels = s.channels := rfl
@[simp] theorem setRun_phase (n : BitVec 6) (s : State) : (setRun n s).phase = s.phase := rfl
@[simp] theorem setRun_npix (n : BitVec 6) (s : State) : (setRun n s).npix = s.npix := rfl
@[simp] theorem setRun_out (n : BitVec 6) (s : State) : (setRun n s).out = s.out := rfl
@[simp] theorem setRun_config (n : BitVec 6) (s : State) : (setRun n s).config = s.config := rfl
@[simp] theorem setRun_port (n : BitVec 6) (s : State) : (setRun n s).port = s.port := rfl

@[simp] theorem setRun_setRun (m n : BitVec 6) (s : State) : setRun m (setRun n s) = setRun m s := rfl
@[simp] theorem setRun_self (s : State) : setRun s.run s = s := rfl
@[simp] theorem setPrev_self (s : State) : setPrev s.prev s = s := rfl

/-! ### cacheWrite -/

@[simp] theorem cacheWrite_prev (k : Slot) (px : Pixel) (s : State) : (cacheWrite k px s).prev = s.prev := rfl
@[simp] theorem cacheWrite_run (k : Slot) (px : Pixel) (s : State) : (cacheWrite k px s).run = s.run := rfl
@[simp] theorem cacheWrite_cache (k : Slot) (px : Pixel) (s : State) :
    (cacheWrite k px s).cache = s.cache.set k px := rfl
@[simp] theorem cacheWrite_valid (k : Slot) (px : Pixel) (s : State) :
    (cacheWrite k px s).valid = if s.config.cacheValidTracking then s.valid.set k true else s.valid := rfl
@[simp] theorem cacheWrite_width (k : Slot) (px : Pixel) (s : State) : (cacheWrite k px s).width = s.width := rfl
@[simp] theorem cacheWrite_height (k : Slot) (px : Pixel) (s : State) :
    (cacheWrite k px s).height = s.height := rfl
@[simp] theorem cacheWrite_channels (k : Slot) (px : Pixel) (s : State) :
    (cacheWrite k px s).channels = s.channels := rfl
@[simp] theorem cacheWrite_phase (k : Slot) (px : Pixel) (s : State) : (cacheWrite k px s).phase = s.phase := rfl
@[simp] theorem cacheWrite_npix (k : Slot) (px : Pixel) (s : State) : (cacheWrite k px s).npix = s.npix := rfl
@[simp] theorem cacheWrite_out (k : Slot) (px : Pixel) (s : State) : (cacheWrite k px s).out = s.out := rfl
@[simp] theorem cacheWrite_config (k : Slot) (px : Pixel) (s : State) :
    (cacheWrite k px s).config = s.config := rfl
@[simp] theorem cacheWrite_port (k : Slot) (px : Pixel) (s : State) : (cacheWrite k px s).port = s.port := rfl

/-! ### initPass -/

@[simp] theorem initPass_prev (s : State) : (initPass s).prev = Pixel.opaqueBlack := rfl
@[simp] theorem initPass_run (s : State) : (initPass s).run = 0#6 := rfl
@[simp] theorem initPass_cache (s : State) :
    (initPass s).cache = Vector.replicate 64 Pixel.transparentBlack := rfl
@[simp] theorem initPass_valid (s : State) : (initPass s).valid = Vector.replicate 64 false := rfl
@[simp] theorem initPass_width (s : State) : (initPass s).width = s.width := rfl
@[simp] theorem initPass_height (s : State) : (initPass s).height = s.height := rfl
@[simp] theorem initPass_channels (s : State) : (initPass s).channels = s.channels := rfl
@[simp] theorem initPass_phase (s : State) : (initPass s).phase = s.phase := rfl
@[simp] theorem initPass_npix (s : State) : (initPass s).npix = 0 := rfl
@[simp] theorem initPass_out (s : State) : (initPass s).out = { cells := [] } := rfl
@[simp] theorem initPass_config (s : State) : (initPass s).config = s.config := rfl
@[simp] theorem initPass_port (s : State) : (initPass s).port = s.port := rfl

/-! ### hardwareReset -/

@[simp] theorem hardwareReset_prev (s : State) : (hardwareReset s).prev = Pixel.opaqueBlack := rfl
@[simp] theorem hardwareReset_run (s : State) : (hardwareReset s).run = 0#6 := rfl
@[simp] theorem hardwareReset_cache (s : State) :
    (hardwareReset s).cache = Vector.replicate 64 Pixel.transparentBlack := rfl
@[simp] theorem hardwareReset_valid (s : State) : (hardwareReset s).valid = Vector.replicate 64 false := rfl
@[simp] theorem hardwareReset_width (s : State) : (hardwareReset s).width = 0#32 := rfl
@[simp] theorem hardwareReset_height (s : State) : (hardwareReset s).height = 0#32 := rfl
@[simp] theorem hardwareReset_channels (s : State) : (hardwareReset s).channels = 0#8 := rfl
@[simp] theorem hardwareReset_phase (s : State) : (hardwareReset s).phase = .idle := rfl
@[simp] theorem hardwareReset_npix (s : State) : (hardwareReset s).npix = 0 := rfl
@[simp] theorem hardwareReset_out (s : State) : (hardwareReset s).out = { cells := [] } := rfl
@[simp] theorem hardwareReset_config (s : State) : (hardwareReset s).config = s.config := rfl
@[simp] theorem hardwareReset_port (s : State) : (hardwareReset s).port = s.port := rfl

/-! ### Reading the cache -/

@[simp] theorem readSlot_emit (k : Slot) (bs : List Byte) (s : State) : readSlot k (emit bs s) = readSlot k s := rfl
@[simp] theorem readSlot_setPrev (k : Slot) (px : Pixel) (s : State) : readSlot k (setPrev px s) = readSlot k s := rfl
@[simp] theorem readSlot_setRun (k : Slot) (n : BitVec 6) (s : State) : readSlot k (setRun n s) = readSlot k s := rfl
@[simp] theorem readValid_emit (k : Slot) (bs : List Byte) (s : State) : readValid k (emit bs s) = readValid k s := rfl
@[simp] theorem readValid_setPrev (k : Slot) (px : Pixel) (s : State) :
    readValid k (setPrev px s) = readValid k s := rfl
@[simp] theorem readValid_setRun (k : Slot) (n : BitVec 6) (s : State) :
    readValid k (setRun n s) = readValid k s := rfl

/-- A slot reads as the pixel just written to it, and every other slot as before (R63, R64). -/
theorem readSlot_cacheWrite (j k : Slot) (px : Pixel) (s : State) :
    readSlot j (cacheWrite k px s) = if j = k then px else readSlot j s := by
  simp only [readSlot, cacheWrite_cache, Fin.getElem_fin, Vector.getElem_set, Fin.ext_iff, eq_comm]

/-- A write sets the valid bit of its slot only where those are tracked (R63). -/
theorem readValid_cacheWrite (j k : Slot) (px : Pixel) (s : State) :
    readValid j (cacheWrite k px s) =
      if s.config.cacheValidTracking = true ∧ j = k then true else readValid j s := by
  by_cases hc : s.config.cacheValidTracking = true
  · simp only [readValid, cacheWrite_valid, hc, ↓reduceIte, Fin.getElem_fin, Vector.getElem_set, Fin.ext_iff, true_and,
      eq_comm]
  · simp [readValid, hc]

@[simp] theorem readSlot_initPass (k : Slot) (s : State) : readSlot k (initPass s) = Pixel.transparentBlack := by
  simp [readSlot]

@[simp] theorem readValid_initPass (k : Slot) (s : State) : readValid k (initPass s) = false := by
  simp [readValid]

/-! ### andThen -/

@[simp] theorem andThen_next (s : State) (f : State → Host.Outcome State Fault Refusal) :
    andThen (.next s) f = f s := rfl
@[simp] theorem andThen_refused (r : Refusal) (f : State → Host.Outcome State Fault Refusal) :
    andThen (.refused r) f = .refused r := rfl

/-- A sequence answers a next state exactly when both parts do. -/
theorem andThen_eq_next {o : Host.Outcome State Fault Refusal}
    {f : State → Host.Outcome State Fault Refusal} {t : State} :
    andThen o f = .next t ↔ ∃ u, o = .next u ∧ f u = .next t := by
  cases o with
  | next s => simp
  | fault r => exact nomatch r
  | refused r => simp

end Sys2Proof.Machine
end

