-- ==== Sys2Proof/Laws/Memory.lean ====
section
/-!
SUPPORT. OUT as data: its one canonical form, kept by every operation on it, and the one lemma that says all an
append does.
-/
namespace Sys2Proof.Machine

namespace Memory

@[simp] theorem size_empty : Memory.size { cells := [] } = 0 := rfl
@[simp] theorem bytes_empty : Memory.bytes { cells := [] } = [] := rfl
theorem wf_empty : Memory.wf { cells := [] } := rfl

@[simp] theorem length_bytes (m : Memory) : m.bytes.length = m.size := by simp [bytes, size]

@[simp] theorem append_nil (m : Memory) : m.append [] = m := rfl

@[simp] theorem bytes_append (m : Memory) (bs : List Byte) : (m.append bs).bytes = m.bytes ++ bs := by
  induction bs generalizing m with
  | nil => simp
  | cons b bs ih => rw [Memory.append, ih]; simp [bytes]

@[simp] theorem size_append (m : Memory) (bs : List Byte) : (m.append bs).size = m.size + bs.length := by
  rw [← length_bytes, bytes_append, List.length_append, length_bytes]

theorem append_append (m : Memory) (xs ys : List Byte) : (m.append xs).append ys = m.append (xs ++ ys) := by
  induction xs generalizing m with
  | nil => rfl
  | cons b xs ih => exact ih _

/-- Appending keeps the canonical form. -/
theorem wf_append {m : Memory} (h : m.wf) (bs : List Byte) : (m.append bs).wf := by
  induction bs generalizing m with
  | nil => exact h
  | cons b bs ih =>
    apply ih
    simp only [wf, size] at *
    simp [h, List.range_succ]

/-- A memory in canonical form is its contents laid out from address 0. -/
theorem cells_eq_zipIdx {m : Memory} (h : m.wf) : m.cells = (List.range m.size).zip m.bytes := by
  rw [← h, bytes, List.zip_map']; simp

/-- Equal contents are equal memories: the canonical form has one memory for each byte sequence. -/
theorem eq_of_bytes_eq {m m' : Memory} (h : m.wf) (h' : m'.wf) (e : m.bytes = m'.bytes) : m = m' := by
  have hs : m.size = m'.size := by rw [← length_bytes, ← length_bytes, e]
  have hc : m.cells = m'.cells := by rw [cells_eq_zipIdx h, cells_eq_zipIdx h', hs, e]
  cases m; cases m'; simpa using hc

theorem lookup_zip_range' (bs : List Byte) (n a : Nat) :
    ((List.range' n bs.length).zip bs).lookup (n + a) = bs[a]? := by
  induction bs generalizing n a with
  | nil => simp
  | cons b bs ih =>
    cases a with
    | zero => simp [List.range'_succ]
    | succ a =>
      have hne : (n + (a + 1) == n) = false := by simp
      have := ih (n + 1) a
      rw [show n + 1 + a = n + (a + 1) by omega] at this
      simp [List.range'_succ, List.lookup_cons, this, hne]

/-- Reading an address of a memory in canonical form. -/
theorem readByte_eq {m : Memory} (h : m.wf) (a : Nat) : m.readByte a = m.bytes[a]? := by
  rw [readByte, cells_eq_zipIdx h, List.range_eq_range', ← length_bytes]
  simpa using lookup_zip_range' m.bytes 0 a

/-- The addresses of a memory in canonical form are strictly rising. -/
theorem addresses_rising {m : Memory} (h : m.wf) : (m.cells.map Prod.fst).Pairwise (· < ·) := by
  rw [h]; exact List.pairwise_lt_range

/-- All an append does. -/
theorem outGrows_append {m : Memory} (h : m.wf) (bs : List Byte) : OutGrows bs m (m.append bs) where
  wf := wf_append h bs
  contents := bytes_append m bs
  earlier a ha := by
    rw [readByte_eq (wf_append h bs), readByte_eq h, bytes_append, List.getElem?_append_left (by simpa using ha)]
  written k _ := by
    rw [readByte_eq (wf_append h bs), bytes_append, List.getElem?_append_right (by simp)]
    simp
  past a ha := by
    rw [readByte_eq (wf_append h bs), bytes_append]
    simpa using ha

end Memory

/-- Reset memory is in canonical form. -/
theorem reset_out_wf : State.reset.out.wf := rfl

end Sys2Proof.Machine
end

