-- ==== Sys2Proof/Laws/Chunks.lean ====
section
/-!
SUPPORT. What the packer, the classifier and the flush can do, said once each.
-/
namespace Sys2Proof.Machine

/-! ### Signed readings (R8) -/

theorem inRange_iff {lo hi v : Int} : inRange lo hi v = true ↔ lo ≤ v ∧ v ≤ hi := by simp [inRange]

theorem legalChannels_iff {c : Byte} : legalChannels c = true ↔ c = 3#8 ∨ c = 4#8 := by simp [legalChannels]

/-- `s8` is the representative of its argument modulo 256 in [-128, 127]. -/
theorem s8_spec (v : Int) : -128 ≤ s8 v ∧ s8 v ≤ 127 ∧ (s8 v) % 256 = v % 256 := by
  unfold s8; split <;> omega

theorem s8_of_small {v : Int} (lo : -128 ≤ v) (hi : v ≤ 127) : s8 v = v := by unfold s8; split <;> omega

/-- `a` is `b` plus the wraparound difference, in byte arithmetic. -/
theorem add_wsub8 (a b : Byte) : b + BitVec.ofInt 8 (wsub8 a b) = a := by
  have h := (s8_spec ((a.toNat : Int) - b.toNat)).2.2
  unfold wsub8
  generalize s8 ((a.toNat : Int) - b.toNat) = d at h
  have ha := a.isLt
  have hb := b.isLt
  apply BitVec.eq_of_toNat_eq
  rw [BitVec.toNat_add, BitVec.toNat_ofInt]
  omega

/-! ### The packer -/

/-- All that emitting one descriptor can do. -/
theorem emitChunk_cases (k : Chunk) (s : State) :
    (k.inRange = true ∧ emitChunk k s = .next (emit (packFields k) s)) ∨
    (k.inRange = false ∧ emitChunk k s = .refused .badDescriptor) := by
  unfold emitChunk pack
  cases k.inRange <;> simp

/-- Emitting descriptors answers a next state exactly when all are in range, and then appends their bytes back to
back (R86). -/
theorem emitChunks_eq_next {ks : List Chunk} {s t : State} :
    emitChunks ks s = .next t ↔ (∀ k ∈ ks, k.inRange = true) ∧ t = emit (ks.flatMap packFields) s := by
  induction ks generalizing s with
  | nil => exact ⟨fun h => ⟨by simp, (Host.Outcome.next.inj h).symm⟩, fun h => congrArg Host.Outcome.next h.2.symm⟩
  | cons k ks ih =>
    rcases emitChunk_cases k s with ⟨hk, he⟩ | ⟨hk, he⟩
    · simp [emitChunks, he, hk, ih, emit, Memory.append_append]
    · simp [emitChunks, he, hk]

/-- Emitting descriptors that are in range. -/
theorem emitChunks_next {ks : List Chunk} {s : State} (h : ∀ k ∈ ks, k.inRange = true) :
    emitChunks ks s = .next (emit (ks.flatMap packFields) s) := emitChunks_eq_next.2 ⟨h, rfl⟩

/-! ### The cache -/

/-- When a lookup hits, in both settings of `CACHE_VALID_TRACKING` (R62). -/
theorem cacheLookup_hit_iff {px : Pixel} {s : State} :
    (cacheLookup px s).2 = true ↔
      readSlot (slot px) s = px ∧ (s.config.cacheValidTracking = true → readValid (slot px) s = true) := by
  unfold cacheLookup
  cases s.config.cacheValidTracking <;> simp

@[simp] theorem cacheLookup_slot (px : Pixel) (s : State) : (cacheLookup px s).1 = slot px := rfl

/-! ### The classifier -/

/-- The chunk of a pixel the cache missed: the first of the three kinds that applies. -/
theorem missChunk_cases (c : Byte) (px prev : Pixel) :
    (diffEligible (deltas px prev) = true ∧
      missChunk c px prev = .diff (deltas px prev).dr (deltas px prev).dg (deltas px prev).db) ∨
    (diffEligible (deltas px prev) = false ∧ lumaEligible (deltas px prev) = true ∧
      missChunk c px prev =
        .luma (deltas px prev).dg (lumaRed (deltas px prev)) (lumaBlue (deltas px prev))) ∨
    (diffEligible (deltas px prev) = false ∧ lumaEligible (deltas px prev) = false ∧
      missChunk c px prev = rawChunk c px) := by
  by_cases hd : diffEligible (deltas px prev) = true
  · exact .inl ⟨hd, if_pos hd⟩
  · by_cases hl : lumaEligible (deltas px prev) = true
    · exact .inr (.inl ⟨by simpa using hd, hl, (if_neg hd).trans (if_pos hl)⟩)
    · exact .inr (.inr ⟨by simpa using hd, by simpa using hl, (if_neg hd).trans (if_neg hl)⟩)

/-- The state after a pixel's own chunk where the cache missed (R63, R75). -/
def afterMiss (px : Pixel) (s : State) : State := setPrev px (cacheWrite (slot px) px s)

/-- All that steps 3 to 6 can do. -/
theorem ownChunk_cases (px : Pixel) (s : State) :
    ((cacheLookup px s).2 = true ∧ ownChunk px s = (.index (slot px), setPrev px s)) ∨
    ((cacheLookup px s).2 = false ∧ ownChunk px s = (missChunk s.channels px s.prev, afterMiss px s)) := by
  by_cases h : (cacheLookup px s).2 = true
  · exact .inl ⟨h, if_pos h⟩
  · exact .inr ⟨by simpa using h, if_neg h⟩

/-- All that the classifier can do: the rows of R79. -/
theorem classify_cases (px : Pixel) (s : State) :
    (px = s.prev ∧ s.run.toNat < 62 ∧ classify px s = ([], setRun (s.run + 1#6) s)) ∨
    (px = s.prev ∧ ¬ s.run.toNat < 62 ∧ classify px s = ([.run s.run.toNat], setRun 1#6 s)) ∨
    (px ≠ s.prev ∧ s.run = 0#6 ∧
      classify px s = ([(ownChunk px s).1], (ownChunk px s).2)) ∨
    (px ≠ s.prev ∧ s.run ≠ 0#6 ∧
      classify px s =
        ([.run s.run.toNat, (ownChunk px (setRun 0#6 s)).1], (ownChunk px (setRun 0#6 s)).2)) := by
  have hc : runContinues px s = true ↔ px = s.prev ∧ s.run.toNat < 62 := by simp [runContinues, runMax]
  by_cases he : px = s.prev
  · by_cases hr : s.run.toNat < 62
    · exact .inl ⟨he, hr, if_pos (hc.2 ⟨he, hr⟩)⟩
    · have h0 : ¬ s.run = 0#6 := by intro h; simp [h] at hr
      exact .inr (.inl ⟨he, hr, (if_neg fun h => hr (hc.1 h).2).trans ((if_neg h0).trans (if_pos he))⟩)
  · by_cases h0 : s.run = 0#6
    · exact .inr (.inr (.inl ⟨he, h0, (if_neg fun h => he (hc.1 h).1).trans (if_pos h0)⟩))
    · exact .inr (.inr (.inr ⟨he, h0, (if_neg fun h => he (hc.1 h).1).trans ((if_neg h0).trans (if_neg he))⟩))

theorem missChunk_inRange (c : Byte) (px prev : Pixel) : (missChunk c px prev).inRange = true := by
  rcases missChunk_cases c px prev with ⟨hd, h⟩ | ⟨-, hl, h⟩ | ⟨-, -, h⟩
  · simpa [h, Chunk.inRange, Chunk.instr, Instr.wellFormed, diffEligible] using hd
  · simpa [h, Chunk.inRange, Chunk.instr, Instr.wellFormed, lumaEligible] using hl
  · rw [h]; unfold rawChunk; split <;> rfl

theorem ownChunk_inRange (px : Pixel) (s : State) : (ownChunk px s).1.inRange = true := by
  rcases ownChunk_cases px s with ⟨-, h⟩ | ⟨-, h⟩
  · have := (slot px).isLt
    simp only [h, Chunk.inRange, Chunk.instr, Instr.wellFormed, decide_eq_true_eq]
    omega
  · simpa [h] using missChunk_inRange _ _ _

theorem runChunk_inRange {r : BitVec 6} (h0 : r ≠ 0#6) (h : r.toNat ≤ 62) :
    (Chunk.run r.toNat).inRange = true := by
  have : r.toNat ≠ 0 := fun h => h0 (BitVec.eq_of_toNat_eq (by simpa using h))
  simp [Chunk.inRange, Chunk.instr, Instr.wellFormed]; omega

/-- The classifier builds only descriptors in range (R80 to R83), from a legal `run`. -/
theorem classify_inRange (px : Pixel) {s : State} (h : s.run.toNat ≤ 62) :
    ∀ k ∈ (classify px s).1, k.inRange = true := by
  rcases classify_cases px s with ⟨-, -, e⟩ | ⟨-, hr, e⟩ | ⟨-, -, e⟩ | ⟨-, h0, e⟩ <;> simp only [e]
  · simp
  · simpa using runChunk_inRange (by rintro h0; simp [h0] at hr) h
  · simpa using ownChunk_inRange px s
  · simpa using ⟨runChunk_inRange h0 h, ownChunk_inRange px _⟩

/-- What a pixel never writes: the pass registers, the phase, the counter, OUT, the parameters, the port. -/
theorem classify_frame (px : Pixel) (s : State) :
    (classify px s).2.width = s.width ∧ (classify px s).2.height = s.height ∧
    (classify px s).2.channels = s.channels ∧ (classify px s).2.phase = s.phase ∧
    (classify px s).2.npix = s.npix ∧ (classify px s).2.out = s.out ∧
    (classify px s).2.config = s.config ∧ (classify px s).2.port = s.port := by
  rcases classify_cases px s with ⟨-, -, e⟩ | ⟨-, -, e⟩ | ⟨-, -, e⟩ | ⟨-, -, e⟩ <;> rw [e]
  · exact ⟨rfl, rfl, rfl, rfl, rfl, rfl, rfl, rfl⟩
  · exact ⟨rfl, rfl, rfl, rfl, rfl, rfl, rfl, rfl⟩
  · rcases ownChunk_cases px s with ⟨-, h⟩ | ⟨-, h⟩ <;> rw [h] <;>
      exact ⟨rfl, rfl, rfl, rfl, rfl, rfl, rfl, rfl⟩
  · rcases ownChunk_cases px (setRun 0#6 s) with ⟨-, h⟩ | ⟨-, h⟩ <;> rw [h] <;>
      exact ⟨rfl, rfl, rfl, rfl, rfl, rfl, rfl, rfl⟩

/-- All that the end-of-stream flush can do (R78). -/
theorem flushRun_cases (s : State) :
    (s.run = 0#6 ∧ flushRun s = ([], s)) ∨
    (s.run ≠ 0#6 ∧ flushRun s = ([.run s.run.toNat], (setRun 0#6 s))) := by
  by_cases h : s.run = 0#6
  · exact .inl ⟨h, if_pos h⟩
  · exact .inr ⟨h, if_neg h⟩

theorem flushRun_inRange {s : State} (h : s.run.toNat ≤ 62) : ∀ k ∈ (flushRun s).1, k.inRange = true := by
  rcases flushRun_cases s with ⟨-, e⟩ | ⟨h0, e⟩ <;> simp only [e]
  · simp
  · simpa using runChunk_inRange h0 h

end Sys2Proof.Machine
end

