-- ==== Sys2Proof/Laws/Commands.lean ====
section
/-!
SUPPORT. What the host commands and a step can do, said once each.
-/
namespace Sys2Proof.Machine

/-- The state START leaves (R20, R51). -/
def opened (w h : Word32) (c : Byte) (s : State) : State :=
  { emitHeader w h c (initPass { s with width := w, height := h, channels := c }) with phase := .body }

/-- All that START can do. -/
theorem openPass_cases (w h : Word32) (c : Byte) (s : State) :
    (s.phase = .body ∧ openPass w h c s = .refused .startInPass) ∨
    (s.phase ≠ .body ∧ legalChannels c = false ∧ openPass w h c s = .refused .badChannels) ∨
    (s.phase ≠ .body ∧ legalChannels c = true ∧ openPass w h c s = .next (opened w h c s)) := by
  unfold openPass opened
  by_cases hp : s.phase = .body <;> cases hc : legalChannels c <;> simp [hp]

theorem openPass_eq_next {w h : Word32} {c : Byte} {s t : State} :
    openPass w h c s = .next t ↔ s.phase ≠ .body ∧ legalChannels c = true ∧ t = opened w h c s := by
  rcases openPass_cases w h c s with ⟨hp, e⟩ | ⟨hp, hc, e⟩ | ⟨hp, hc, e⟩
  · simp [e, hp]
  · simp [e, hc]
  · simp [e, hp, hc, eq_comm]

/-- The bytes a classified pixel appends to OUT. -/
def pixelBytes (px : Pixel) (s : State) : List Byte := (classify px s).1.flatMap packFields

/-- The state an accepted pixel leaves (R52). -/
def accepted (px : Pixel) (s : State) : State :=
  { emit (pixelBytes px s) (classify px s).2 with npix := s.npix + 1 }

/-- PIXEL answers a next state exactly in an open pass, on `CHANNELS` bytes that form a pixel whose chunks pack. -/
theorem acceptPixel_eq_next {bytes : List Byte} {s t : State} :
    acceptPixel bytes s = .next t ↔
      s.phase = .body ∧ bytes.length = s.channels.toNat ∧ ∃ px, logicalPixel s.channels bytes = some px ∧
        (∀ k ∈ (classify px s).1, k.inRange = true) ∧ t = accepted px s := by
  unfold acceptPixel
  by_cases hp : s.phase = .body <;> by_cases hl : bytes.length = s.channels.toNat <;> simp only [hp, hl, ↓reduceIte]
  · cases hx : logicalPixel s.channels bytes with
    | none => simp
    | some px =>
      have hn := (classify_frame px s).2.2.2.2.1
      simp only [andThen_eq_next, emitChunks_eq_next, true_and, Option.some.injEq, exists_eq_left']
      constructor
      · rintro ⟨u, ⟨hk, rfl⟩, e⟩
        simp only [Host.Outcome.next.injEq] at e
        exact ⟨hk, by rw [← e]; simp [accepted, pixelBytes, hn]⟩
      · rintro ⟨hk, rfl⟩
        exact ⟨_, ⟨hk, rfl⟩, by simp [accepted, pixelBytes, hn]⟩
  all_goals simp

/-- An accepted pixel, from a legal `run`. -/
theorem acceptPixel_next {bytes : List Byte} {s : State} {px : Pixel} (hp : s.phase = .body)
    (hl : bytes.length = s.channels.toNat) (hx : logicalPixel s.channels bytes = some px)
    (hr : s.run.toNat ≤ 62) : acceptPixel bytes s = .next (accepted px s) :=
  acceptPixel_eq_next.2 ⟨hp, hl, px, hx, classify_inRange px hr, rfl⟩

/-- The state FINISH leaves (R53). -/
def closed (s : State) : State :=
  { emitTerminator (emit ((flushRun s).1.flatMap packFields) (flushRun s).2) with phase := .done }

/-- FINISH answers a next state exactly in an open pass whose final run packs. -/
theorem closePass_eq_next {s t : State} :
    closePass s = .next t ↔
      s.phase = .body ∧ (∀ k ∈ (flushRun s).1, k.inRange = true) ∧ t = closed s := by
  unfold closePass
  by_cases hp : s.phase = .body <;> simp only [hp, ↓reduceIte]
  · simp only [andThen_eq_next, emitChunks_eq_next, true_and]
    constructor
    · rintro ⟨u, ⟨hk, rfl⟩, e⟩
      exact ⟨hk, by simpa [closed, eq_comm] using e⟩
    · rintro ⟨hk, rfl⟩
      exact ⟨_, ⟨hk, rfl⟩, rfl⟩
  · simp

/-- FINISH, from a legal `run`. -/
theorem closePass_next {s : State} (hp : s.phase = .body) (hr : s.run.toNat ≤ 62) :
    closePass s = .next (closed s) := closePass_eq_next.2 ⟨hp, flushRun_inRange hr, rfl⟩

/-- A logical pixel exists for every PIXEL operand of the right size, with 3 or 4 channels. -/
theorem logicalPixel_isSome {c : Byte} {bytes : List Byte} (hc : legalChannels c = true)
    (hl : bytes.length = c.toNat) : ∃ px, logicalPixel c bytes = some px := by
  rcases legalChannels_iff.1 hc with rfl | rfl
  · obtain ⟨r, g, b, rfl⟩ := List.length_eq_three.1 hl
    exact ⟨_, rfl⟩
  · match bytes, hl with
    | [r, g, b, a], _ => exact ⟨_, rfl⟩

/-- The stored pixels of IN all have the size of the pass (R25, R26). -/
theorem length_of_mem_pixelGroups {c : Nat} {input p : List Byte} (h : p ∈ pixelGroups c input) :
    p.length = c := by
  simp only [pixelGroups, List.mem_map, List.mem_range, memRead] at h
  obtain ⟨i, hi, rfl⟩ := h
  have : (i + 1) * c ≤ input.length :=
    le_trans (Nat.mul_le_mul_right c hi) (Nat.div_mul_le_self _ _)
  rw [Nat.add_mul] at this
  simp; omega

/-- `runSteps` is the host's run of this machine. -/
theorem runSteps_eq_run (k : Nat) (s : State) : runSteps k s = Host.Core.run Sys2Proof.core k s := by
  induction k generalizing s with
  | zero => rfl
  | succ k ih =>
    simp only [runSteps, Host.Core.run]
    cases h : step s with
    | next t => rw [show Sys2Proof.core.step s = .next t from h]; exact ih t
    | fault r => exact nomatch r
    | refused r => rw [show Sys2Proof.core.step s = .refused r from h]; rfl

/-- All that a step can do. -/
theorem step_cases (s : State) :
    (s.port = [] ∧ step s = .next s) ∨
    (∃ rest, s.port = .reset :: rest ∧ step s = .next (hardwareReset { s with port := rest })) ∨
    (∃ i rest, s.port = .command i :: rest ∧ step s = exec i { s with port := rest }) ∨
    (∃ bytes rest i tail, s.port = .element bytes :: rest ∧
      decodeAt s.config.magic (s.out.size == 0) bytes = .ok (i, tail) ∧
      step s = exec i { s with port := rest }) ∨
    (∃ bytes rest e, s.port = .element bytes :: rest ∧
      decodeAt s.config.magic (s.out.size == 0) bytes = .error e ∧
      step s = .refused .truncatedElement) := by
  match hp : s.port with
  | [] => exact .inl ⟨rfl, by simp [step, hp]⟩
  | .reset :: rest => exact .inr (.inl ⟨rest, rfl, by simp [step, hp, requestOf, serve]⟩)
  | .command i :: rest => exact .inr (.inr (.inl ⟨i, rest, rfl, by simp [step, hp, requestOf, serve]⟩))
  | .element bytes :: rest =>
    match hd : decodeAt s.config.magic (s.out.size == 0) bytes with
    | .ok (i, tail) =>
      exact .inr (.inr (.inr (.inl ⟨bytes, rest, i, tail, rfl, hd, by simp [step, hp, requestOf, serve, hd]⟩)))
    | .error e =>
      exact .inr (.inr (.inr (.inr ⟨bytes, rest, e, rfl, hd, by simp [step, hp, requestOf, serve, hd]⟩)))

end Sys2Proof.Machine
end

