-- ==== Sys2Proof/Laws/PerInstr.lean ====
section
/-!
SUPPORT. One lemma for each constructor of Instr: an instruction's bytes have the length its row of the opcode
table gives (30_encoding.md R38 to R45); a host command has no bytes (R50).
-/
namespace Sys2Proof.Laws.WordLength

/-- The length in bytes the opcode table gives a row; none for a host command. -/
def tableLength : Instr → Option Nat
  | .index _ => some 1
  | .diff _ _ _ => some 1
  | .luma _ _ _ => some 2
  | .run _ => some 1
  | .rgb _ _ _ => some 4
  | .rgba _ _ _ _ => some 5
  | .header _ _ _ => some 14
  | .endMark => some 8
  | .start _ _ _ => none
  | .pixel _ => none
  | .finish => none
  | .encode _ _ _ _ => none

/-- For every MAGIC, the encoder gives exactly that many bytes. -/
def Statement (i : Instr) : Prop := ∀ magic : Magic, (encode magic i).map List.length = tableLength i

theorem index (slot : Nat) : Statement (.index slot) := fun _ => rfl
theorem diff (dr dg db : Int) : Statement (.diff dr dg db) := fun _ => rfl
theorem luma (dg drg dbg : Int) : Statement (.luma dg drg dbg) := fun _ => rfl
theorem run (n : Nat) : Statement (.run n) := fun _ => rfl
theorem rgb (r g b : Byte) : Statement (.rgb r g b) := fun _ => rfl
theorem rgba (r g b a : Byte) : Statement (.rgba r g b a) := fun _ => rfl
theorem header (w h : Word32) (c : Byte) : Statement (.header w h c) := fun _ => rfl
theorem endMark : Statement .endMark := fun _ => rfl
theorem start (w h : Word32) (c : Byte) : Statement (.start w h c) := fun _ => rfl
theorem pixel (bytes : List Byte) : Statement (.pixel bytes) := fun _ => rfl
theorem finish : Statement .finish := fun _ => rfl
theorem encode (w h : Word32) (c : Byte) (input : List Byte) : Statement (.encode w h c input) := fun _ => rfl

end Sys2Proof.Laws.WordLength
end

