-- ==== Sys2Proof/Tests/Slice0.lean ====
section
/-!
SUPPORT. Tests on fixed values, and for every obligation with hypotheses a witness that meets them all. The expected
values are those of spec/95_test_vectors.md, named by their ids there, or words written out from the layouts of
spec/30_encoding.md.
-/
open Sys2Proof Sys2Proof.Machine

namespace Sys2Proof.Tests

/-! ### Helpers -/

/-- An open pass with the given channels, `prev` and `run`, and OUT empty. -/
def inPass (c : Byte) (prev : Pixel) (run : BitVec 6) : State :=
  { State.reset with channels := c, phase := .body, prev := prev, run := run }

/-- The same with one cache slot set. -/
def withSlot (k : Slot) (px : Pixel) (s : State) : State := { s with cache := s.cache.set k px }

/-- The same with `CACHE_VALID_TRACKING` on. -/
def tracking (s : State) : State := { s with config := { s.config with cacheValidTracking := true } }

/-- After a pass. -/
def afterPass : State := { State.reset with phase := .done, channels := 4 }

/-- Opaque black and the colour (10,20,30,255) of the vectors. -/
def black : Pixel := ⟨0, 0, 0, 255⟩
def teal : Pixel := ⟨10, 20, 30, 255⟩

/-- The outcome is a next state. -/
def completes (o : Host.Outcome State Fault Refusal) : Bool :=
  match o with
  | .next _ => true
  | .fault _ => false
  | .refused _ => false

theorem next_of_completes {o : Host.Outcome State Fault Refusal} (h : completes o = true) :
    ∃ t, o = .next t := by
  cases o with
  | next t => exact ⟨t, rfl⟩
  | fault r => cases r
  | refused r => simp [completes] at h

/-- OUT, `prev`, `run` and `npix` after a next state. -/
def shown (o : Host.Outcome State Fault Refusal) : Option (List Byte × Pixel × Nat × Nat) :=
  match o with
  | .next t => some (t.out.bytes, t.prev, t.run.toNat, t.npix)
  | .fault _ => none
  | .refused _ => none

/-- Why an outcome is refused. -/
def refusal (o : Host.Outcome State Fault Refusal) : Option Refusal :=
  match o with
  | .next _ => none
  | .fault _ => none
  | .refused r => some r

/-- The slot `k` after a next state. -/
def slotAfter (k : Slot) (o : Host.Outcome State Fault Refusal) : Option Pixel :=
  match o with
  | .next t => some (readSlot k t)
  | .fault _ => none
  | .refused _ => none

/-! ### WellFormed refuses an ill-formed term of each kind -/

theorem test_index_64_ill_formed : (Instr.index 64).wellFormed = false := by decide
theorem test_diff_ill_formed : (Instr.diff 2 0 0).wellFormed = false ∧ (Instr.diff 0 (-3) 0).wellFormed = false ∧
    (Instr.diff 0 0 2).wellFormed = false := by decide
theorem test_luma_ill_formed : (Instr.luma 32 0 0).wellFormed = false ∧ (Instr.luma (-33) 0 0).wellFormed = false ∧
    (Instr.luma 0 8 0).wellFormed = false ∧ (Instr.luma 0 0 (-9)).wellFormed = false := by decide
theorem test_run_ill_formed : (Instr.run 0).wellFormed = false ∧ (Instr.run 63).wellFormed = false := by decide
theorem test_header_ill_formed : (Instr.header 1 1 5).wellFormed = false := by decide
theorem test_start_ill_formed : (Instr.start 1 1 5).wellFormed = false := by decide
theorem test_pixel_ill_formed : (Instr.pixel [0, 0]).wellFormed = false ∧
    (Instr.pixel [0, 0, 0, 0, 0]).wellFormed = false := by decide
theorem test_encode_ill_formed : (Instr.encode 1 1 0 []).wellFormed = false := by decide

/-! ### Decoding: words written out from the layouts -/

/-- R38: 00, then the slot 110101 = 53. -/
theorem test_decode_index : decodeElement [0b00110101] = .ok (.index 53, []) := by decide
/-- R39: 01, then 00 = -2 + 2, 11 = 1 + 2, 10 = 0 + 2. -/
theorem test_decode_diff : decodeElement [0b01001110] = .ok (.diff (-2) 1 0, []) := by decide
/-- R40: 10, then 111111 = 31 + 32; 1111 = 7 + 8, 0000 = -8 + 8 (V-C16). -/
theorem test_decode_luma : decodeElement [0b10111111, 0b11110000] = .ok (.luma 31 7 (-8), []) := by decide
/-- R41: 11, then 111101 = 62 - 1, the longest run. -/
theorem test_decode_run : decodeElement [0b11111101] = .ok (.run 62, []) := by decide
/-- R42: the tag 11111110, then r, g, b. -/
theorem test_decode_rgb : decodeElement [0b11111110, 0x0A, 0x14, 0x1E, 0x77] = .ok (.rgb 10 20 30, [0x77]) := by
  decide
/-- R43: the tag 11111111, then r, g, b, a. -/
theorem test_decode_rgba : decodeElement [0b11111111, 0xC8, 0x64, 0x32, 0x80] = .ok (.rgba 200 100 50 128, []) := by
  decide
/-- R44 and R27: START 4294967295, 305419896, 4 of section 7. -/
theorem test_decode_header :
    decodeHeader Magic.default [0x71, 0x6F, 0x69, 0x66, 0xFF, 0xFF, 0xFF, 0xFF, 0x12, 0x34, 0x56, 0x78, 4, 0] =
      .ok (.header 4294967295 305419896 4, []) := by decide
/-- R45, and log 3: at seven zeros followed by 2 the element is INDEX 0. -/
theorem test_decode_end : decodeElement [0, 0, 0, 0, 0, 0, 0, 1] = .ok (.endMark, []) ∧
    decodeElement [0, 0, 0, 0, 0, 0, 0, 2] = .ok (.index 0, [0, 0, 0, 0, 0, 0, 2]) := by decide
/-- R50: host commands have no encoding. -/
theorem test_commands_have_no_word : encode Magic.default (.start 1 1 4) = none ∧
    encode Magic.default (.pixel [0, 0, 0]) = none ∧ encode Magic.default .finish = none ∧
    encode Magic.default (.encode 1 1 4 []) = none := by decide
/-- A chunk whose bytes are cut short, and a header with a channel count of 5. -/
theorem test_decode_refuses : decodeElement [0x80] = .error .truncated ∧ decodeElement [] = .error .truncated ∧
    decodeElement [0xFF, 1, 2, 3] = .error .truncated ∧
    decodeHeader Magic.default [0x71, 0x6F, 0x69, 0x66, 0, 0, 0, 1, 0, 0, 0, 1, 5, 0] = .error .notHeader := by decide

/-- LUMA's word as the opcode table numbers it: the first byte is bits 7..0, the second bits 15..8. -/
theorem test_table_word : decodeTableWord 16 0xF0BF = some (.luma 31 7 (-8)) ∧ decodeTableWord 8 0xFD = some (.run 62) ∧
    decodeTableWord 64 0x0100000000000000 = some .endMark := by decide
/-- The very next step after placing a word runs it. -/
theorem test_fetch_word : shown (step (State.reset.withFetchWord 16 0xF0BF)) = some ([0xBF, 0xF0], black, 0, 0) := by
  decide

/-! ### The packer and the formatter (sections 5 and 7) -/

theorem test_index_63 : shown (exec (.index 63) State.reset) = some ([0x3F], black, 0, 0) := by decide
theorem test_index_64 : refusal (exec (.index 64) State.reset) = some .badDescriptor := by decide
theorem test_diff_mixed : shown (exec (.diff 1 0 (-1)) State.reset) = some ([0x79], black, 0, 0) := by decide
theorem test_diff_2 : refusal (exec (.diff 2 0 0) State.reset) = some .badDescriptor := by decide
theorem test_luma_mixed : shown (exec (.luma 20 5 (-5)) State.reset) = some ([0xB4, 0xD3], black, 0, 0) := by decide
theorem test_luma_32 : refusal (exec (.luma 32 0 0) State.reset) = some .badDescriptor := by decide
theorem test_run_62 : shown (exec (.run 62) State.reset) = some ([0xFD], black, 0, 0) := by decide
theorem test_run_63 : refusal (exec (.run 63) State.reset) = some .badDescriptor := by decide
theorem test_rgb : shown (exec (.rgb 255 254 253) State.reset) = some ([0xFE, 0xFF, 0xFE, 0xFD], black, 0, 0) := by
  decide
theorem test_rgba : shown (exec (.rgba 200 100 50 128) State.reset) =
    some ([0xFF, 0xC8, 0x64, 0x32, 0x80], black, 0, 0) := by decide
theorem test_header : shown (exec (.header 640 480 3) State.reset) =
    some ([0x71, 0x6F, 0x69, 0x66, 0, 0, 0x02, 0x80, 0, 0, 0x01, 0xE0, 3, 0], black, 0, 0) := by decide
theorem test_end : shown (exec .endMark State.reset) = some ([0, 0, 0, 0, 0, 0, 0, 1], black, 0, 0) := by decide

/-! ### The host commands (sections 4, 7 and 9) -/

/-- V-R12 and section 7: START from DONE replaces OUT by the new header. -/
theorem test_start_from_done : shown (exec (.start 4294967295 305419896 4) { afterPass with out := { cells := [(0, 9)] } }) =
    some ([0x71, 0x6F, 0x69, 0x66, 0xFF, 0xFF, 0xFF, 0xFF, 0x12, 0x34, 0x56, 0x78, 4, 0], black, 0, 0) := by decide
/-- V-R10: the phase check comes first. -/
theorem test_start_in_pass : refusal (exec (.start 1 1 7) (inPass 4 black 0)) = some .startInPass := by decide
/-- V-C4: the run is flushed first, and the deltas are taken against its colour. -/
theorem test_pixel_flush_then_diff : shown (exec (.pixel [6, 5, 5, 255]) (inPass 4 ⟨5, 5, 5, 255⟩ 3)) =
    some ([0xC2, 0x7A], ⟨6, 5, 5, 255⟩, 0, 1) := by decide
/-- V-C29: slot 53 misses and is overwritten. -/
theorem test_pixel_evicts : slotAfter 53 (exec (.pixel [0, 0, 0, 255])
    (withSlot 53 ⟨64, 0, 0, 255⟩ (inPass 4 ⟨64, 0, 0, 255⟩ 0))) = some black := by decide
/-- V-F3. -/
theorem test_finish_flushes : shown (exec .finish (inPass 4 black 62)) =
    some ([0xFD, 0, 0, 0, 0, 0, 0, 0, 1], black, 0, 0) := by decide
/-- V-R9. -/
theorem test_finish_from_done : refusal (exec .finish afterPass) = some .finishOutsidePass := by decide
/-- P2: a run, a raw chunk, a DIFF, an INDEX hit and a dropped trailing group. -/
theorem test_encode_p2 :
    shown (exec (.encode 3 2 3 [0, 0, 0, 0, 0, 0, 10, 20, 30, 11, 21, 31, 10, 20, 30, 10, 20, 30, 99, 98]) State.reset) =
      some ([0x71, 0x6F, 0x69, 0x66, 0, 0, 0, 3, 0, 0, 0, 2, 3, 0, 0xC1, 0xFE, 0x0A, 0x14, 0x1E, 0x7F, 0x09, 0xC0,
        0, 0, 0, 0, 0, 0, 0, 1], teal, 0, 6) := by decide
/-- P4 with CACHE_VALID_TRACKING: the first pixel is a DIFF, not the sentinel hit. -/
theorem test_encode_p4_tracking :
    shown (exec (.encode 2 2 4 [0, 0, 0, 0, 0, 0, 0, 255, 255, 255, 255, 0, 0, 0, 0, 255]) (tracking State.reset)) =
      some ([0x71, 0x6F, 0x69, 0x66, 0, 0, 0, 2, 0, 0, 0, 2, 4, 0, 0x6A, 0x6A, 0x55, 0x35,
        0, 0, 0, 0, 0, 0, 0, 1], black, 0, 4) := by decide

/-! ### The classifier (section 4), through one step of a pixel -/

/-- V-C3, V-C7 and V-C8: the run limit, an INDEX hit, the sentinel hit. -/
theorem test_classify_run_and_index :
    shown (exec (.pixel [5, 5, 5, 255]) (inPass 4 ⟨5, 5, 5, 255⟩ 62)) = some ([0xFD], ⟨5, 5, 5, 255⟩, 1, 1) ∧
    shown (exec (.pixel [10, 20, 30]) (withSlot 9 teal (inPass 3 black 0))) = some ([0x09], teal, 0, 1) ∧
    shown (exec (.pixel [0, 0, 0, 0]) (inPass 4 black 0)) = some ([0x00], ⟨0, 0, 0, 0⟩, 0, 1) := by decide
/-- V-C12, V-C13, V-C17 and V-C22: the DIFF corner, one past it, the LUMA corners, wraparound. -/
theorem test_classify_deltas :
    shown (exec (.pixel [8, 8, 8]) (inPass 3 ⟨10, 10, 10, 255⟩ 0)) = some ([0x40], ⟨8, 8, 8, 255⟩, 0, 1) ∧
    shown (exec (.pixel [12, 10, 10]) (inPass 3 ⟨10, 10, 10, 255⟩ 0)) =
      some ([0xA0, 0xA8], ⟨12, 10, 10, 255⟩, 0, 1) ∧
    shown (exec (.pixel [60, 68, 75]) (inPass 3 ⟨100, 100, 100, 255⟩ 0)) =
      some ([0x80, 0x0F], ⟨60, 68, 75, 255⟩, 0, 1) ∧
    shown (exec (.pixel [10, 10, 10]) (inPass 3 ⟨250, 250, 250, 255⟩ 0)) =
      some ([0xB0, 0x88], ⟨10, 10, 10, 255⟩, 0, 1) := by decide
/-- V-C19 and V-C21: one past LUMA, in a 4-channel and a 3-channel pass. -/
theorem test_classify_raw :
    shown (exec (.pixel [67, 67, 67, 255]) (inPass 4 ⟨100, 100, 100, 255⟩ 0)) =
      some ([0xFF, 0x43, 0x43, 0x43, 0xFF], ⟨67, 67, 67, 255⟩, 0, 1) ∧
    shown (exec (.pixel [1, 10, 10]) (inPass 3 ⟨10, 10, 10, 255⟩ 0)) =
      some ([0xFE, 0x01, 0x0A, 0x0A], ⟨1, 10, 10, 255⟩, 0, 1) := by decide

/-! ### Witnesses: for each obligation with hypotheses, values that meet them -/

theorem witness_IndexPacksItsSlot : 63 ≤ 63 ∧ State.reset.out.wf ∧ 63 < 64 := by decide
theorem witness_DiffPacksBiasedDeltas :
    ((-2 ≤ (-2 : Int) ∧ (-2 : Int) ≤ 1) ∧ (-2 ≤ (1 : Int) ∧ (1 : Int) ≤ 1) ∧ (-2 ≤ (0 : Int) ∧ (0 : Int) ≤ 1)) ∧
    State.reset.out.wf ∧
    ¬ ((-2 ≤ (2 : Int) ∧ (2 : Int) ≤ 1) ∧ (-2 ≤ (0 : Int) ∧ (0 : Int) ≤ 1) ∧ (-2 ≤ (0 : Int) ∧ (0 : Int) ≤ 1)) := by
  decide
theorem witness_LumaPacksBiasedDeltas :
    ((-32 ≤ (31 : Int) ∧ (31 : Int) ≤ 31) ∧ (-8 ≤ (7 : Int) ∧ (7 : Int) ≤ 7) ∧ (-8 ≤ (-8 : Int) ∧ (-8 : Int) ≤ 7)) ∧
    State.reset.out.wf ∧
    ¬ ((-32 ≤ (-33 : Int) ∧ (-33 : Int) ≤ 31) ∧ (-8 ≤ (0 : Int) ∧ (0 : Int) ≤ 7) ∧
        (-8 ≤ (0 : Int) ∧ (0 : Int) ≤ 7)) := by decide
theorem witness_RunPacksLengthLessOne : (1 ≤ 1 ∧ 1 ≤ 62) ∧ (1 ≤ 62 ∧ 62 ≤ 62) ∧ State.reset.out.wf ∧
    ¬ (1 ≤ 0 ∧ 0 ≤ 62) ∧ ¬ (1 ≤ 63 ∧ 63 ≤ 62) := by decide
theorem witness_RawChunksPackSamplesUnchanged : (inPass 3 black 62).out.wf := by decide
theorem witness_FramingRowsAppendTheirBytes : { State.reset with out := { cells := [(0, 7)] } }.out.wf := by decide
theorem witness_StartOpensFreshPass :
    (State.reset.phase ≠ .body ∧ ((3#8 : Byte) = 3#8 ∨ (3#8 : Byte) = 4#8)) ∧
    (afterPass.phase ≠ .body ∧ ((4#8 : Byte) = 3#8 ∨ (4#8 : Byte) = 4#8)) ∧
    (inPass 4 black 0).phase = .body ∧
    (State.reset.phase ≠ .body ∧ ¬ ((5#8 : Byte) = 3#8 ∨ (5#8 : Byte) = 4#8)) := by decide
theorem witness_HeaderBytesStandAtTheirAddresses : ∃ t, exec (.start 640 480 3) afterPass = .next t :=
  next_of_completes (by decide)
theorem witness_FinishFlushesAndTerminates :
    ((inPass 4 black 62).phase = .body ∧ (inPass 4 black 62).run.toNat ≤ 62 ∧ (inPass 4 black 62).out.wf) ∧
    State.reset.phase ≠ .body ∧ afterPass.phase ≠ .body := by decide
/-- V-C2. -/
theorem witness_PixelEqualToPrevContinuesRun :
    (inPass 3 black 61).phase = .body ∧ [0#8, 0#8, 0#8].length = (inPass 3 black 61).channels.toNat ∧
    logicalPixel (inPass 3 black 61).channels [0, 0, 0] = some black ∧ black = (inPass 3 black 61).prev ∧
    (inPass 3 black 61).run.toNat < 62 := by decide
/-- V-C3 for the limit, V-C30 for another colour. -/
theorem witness_OpenRunIsFlushedFirst :
    (let s := inPass 3 black 62
     s.phase = .body ∧ [0#8, 0#8, 0#8].length = s.channels.toNat ∧ logicalPixel s.channels [0, 0, 0] = some black ∧
     s.out.wf ∧ s.run ≠ 0#6 ∧ s.run.toNat ≤ 62 ∧ black = s.prev ∧ s.run.toNat = 62) ∧
    (let s := inPass 3 black 5
     s.phase = .body ∧ [1#8, 1#8, 1#8].length = s.channels.toNat ∧
     logicalPixel s.channels [1, 1, 1] = some ⟨1, 1, 1, 255⟩ ∧ s.out.wf ∧ s.run ≠ 0#6 ∧ s.run.toNat ≤ 62 ∧
     (⟨1, 1, 1, 255⟩ : Pixel) ≠ s.prev) := by decide
/-- V-C7, and the same slot with its valid bit set under CACHE_VALID_TRACKING. -/
theorem witness_CachedPixelEmitsIndex :
    (let s := withSlot 9 teal (inPass 3 black 0)
     s.phase = .body ∧ [10#8, 20#8, 30#8].length = s.channels.toNat ∧
     logicalPixel s.channels [10, 20, 30] = some teal ∧ s.out.wf ∧ s.run.toNat ≤ 62 ∧ teal ≠ s.prev ∧
     readSlot (slot teal) s = teal ∧ (s.config.cacheValidTracking = true → readValid (slot teal) s = true)) ∧
    (let s := { tracking (withSlot 9 teal (inPass 3 black 0)) with valid := Vector.replicate 64 true }
     s.phase = .body ∧ logicalPixel s.channels [10, 20, 30] = some teal ∧ s.out.wf ∧ s.run.toNat ≤ 62 ∧
     teal ≠ s.prev ∧ readSlot (slot teal) s = teal ∧ s.config.cacheValidTracking = true ∧
     readValid (slot teal) s = true) := by decide
/-- V-C12: all three deltas -2; V-C10: all three 1, by wraparound. -/
theorem witness_SmallDeltasEmitDiff :
    (let s := inPass 3 ⟨10, 10, 10, 255⟩ 0
     let px : Pixel := ⟨8, 8, 8, 255⟩
     s.phase = .body ∧ [8#8, 8#8, 8#8].length = s.channels.toNat ∧ logicalPixel s.channels [8, 8, 8] = some px ∧
     s.out.wf ∧ s.run.toNat ≤ 62 ∧ px ≠ s.prev ∧ (cacheLookup px s).2 = false ∧ -2 = wsub8 px.r s.prev.r ∧
     -2 = wsub8 px.g s.prev.g ∧ -2 = wsub8 px.b s.prev.b ∧ (-2 ≤ (-2 : Int) ∧ (-2 : Int) ≤ 1)) ∧
    (let s := inPass 4 ⟨255, 255, 255, 255⟩ 0
     s.phase = .body ∧ [0#8, 0#8, 0#8, 255#8].length = s.channels.toNat ∧
     logicalPixel s.channels [0, 0, 0, 255] = some black ∧ s.out.wf ∧ s.run.toNat ≤ 62 ∧ black ≠ s.prev ∧
     (cacheLookup black s).2 = false ∧ 1 = wsub8 black.r s.prev.r ∧ 1 = wsub8 black.g s.prev.g ∧
     1 = wsub8 black.b s.prev.b ∧ (-2 ≤ (1 : Int) ∧ (1 : Int) ≤ 1)) := by decide
/-- V-C17: dg = -32, dr - dg = -8, db - dg = 7, so dr = -40 and db = -25. -/
theorem witness_LumaDeltasEmitLuma :
    let s := inPass 3 ⟨100, 100, 100, 255⟩ 0
    let px : Pixel := ⟨60, 68, 75, 255⟩
    s.phase = .body ∧ [60#8, 68#8, 75#8].length = s.channels.toNat ∧ logicalPixel s.channels [60, 68, 75] = some px ∧
    s.out.wf ∧ s.run.toNat ≤ 62 ∧ px ≠ s.prev ∧ (cacheLookup px s).2 = false ∧ -40 = wsub8 px.r s.prev.r ∧
    -32 = wsub8 px.g s.prev.g ∧ -25 = wsub8 px.b s.prev.b ∧
    ¬ ((-2 ≤ (-40 : Int) ∧ (-40 : Int) ≤ 1) ∧ (-2 ≤ (-32 : Int) ∧ (-32 : Int) ≤ 1) ∧
        (-2 ≤ (-25 : Int) ∧ (-25 : Int) ≤ 1)) ∧
    (-32 ≤ (-32 : Int) ∧ (-32 : Int) ≤ 31) ∧ (-8 ≤ s8 (-40 - -32) ∧ s8 (-40 - -32) ≤ 7) ∧
    (-8 ≤ s8 (-25 - -32) ∧ s8 (-25 - -32) ≤ 7) := by decide
/-- V-C20 in 3 channels (dr - dg = 8) and V-C19 in 4 (dg = -33). -/
theorem witness_OtherPixelsEmitRawColour :
    (let s := inPass 3 black 0
     let px : Pixel := ⟨18, 10, 10, 255⟩
     s.phase = .body ∧ [18#8, 10#8, 10#8].length = s.channels.toNat ∧
     logicalPixel s.channels [18, 10, 10] = some px ∧ s.out.wf ∧ s.run.toNat ≤ 62 ∧ px ≠ s.prev ∧
     (cacheLookup px s).2 = false ∧ 18 = wsub8 px.r s.prev.r ∧ 10 = wsub8 px.g s.prev.g ∧
     10 = wsub8 px.b s.prev.b ∧ ¬ ((18 : Int) ≤ 1) ∧ ¬ (s8 (18 - 10) ≤ 7)) ∧
    (let s := inPass 4 ⟨100, 100, 100, 255⟩ 0
     let px : Pixel := ⟨67, 67, 67, 255⟩
     s.phase = .body ∧ [67#8, 67#8, 67#8, 255#8].length = s.channels.toNat ∧
     logicalPixel s.channels [67, 67, 67, 255] = some px ∧ s.out.wf ∧ s.run.toNat ≤ 62 ∧ px ≠ s.prev ∧
     (cacheLookup px s).2 = false ∧ -33 = wsub8 px.r s.prev.r ∧ -33 = wsub8 px.g s.prev.g ∧
     -33 = wsub8 px.b s.prev.b ∧ ¬ (-2 ≤ (-33 : Int)) ∧ ¬ (-32 ≤ (-33 : Int))) := by decide
/-- V-R11 and V-R6. -/
theorem witness_PixelRefusalsPhaseBeforeSize : State.reset.phase ≠ .body ∧ (inPass 4 black 0).phase = .body ∧
    [0#8, 0#8, 0#8].length ≠ (inPass 4 black 0).channels.toNat := by decide

theorem reset_scanInv : ScanInv State.reset :=
  ⟨by decide, by decide, by decide, by decide, by decide, by decide, by decide⟩
/-- A 3-channel pass with an open run and a cached colour. -/
theorem pass_scanInv : ScanInv (withSlot 9 teal (inPass 3 teal 61)) :=
  ⟨by decide, by decide, by decide, by decide, by decide, by decide, by decide⟩

theorem witness_ExecCompletesExactlyWhenAdmitted : ScanInv (withSlot 9 teal (inPass 3 teal 61)) := pass_scanInv
theorem witness_EncodeWritesWholeStream : State.reset.phase ≠ .body ∧ ((3#8 : Byte) = 3#8 ∨ (3#8 : Byte) = 4#8) := by
  decide
/-- P2. -/
theorem witness_EncodedStreamReadsBackAsItsChunks : ∃ t, exec
    (.encode 3 2 3 [0, 0, 0, 0, 0, 0, 10, 20, 30, 11, 21, 31, 10, 20, 30, 10, 20, 30, 99, 98]) State.reset = .next t :=
  next_of_completes (by decide)
theorem witness_EncodeRefusedExactlyAsStart :
    refusal (exec (.encode 1 1 7 []) (inPass 4 black 0)) = some .startInPass ∧
    ∃ t, exec (.encode 1 1 4 []) afterPass = .next t :=
  ⟨by decide, next_of_completes (by decide)⟩
theorem witness_NoStateSurvivesIntoNextPass :
    let s' := withSlot 9 teal { afterPass with prev := teal, npix := 5 }
    State.reset.phase ≠ .body ∧ s'.phase ≠ .body ∧ State.reset.config = s'.config ∧ State.reset.port = s'.port := by
  decide
theorem witness_OpaqueBlackImageIsRunsOnly : State.reset.phase ≠ .body ∧
    ((4#8 : Byte) = 3#8 ∨ (4#8 : Byte) = 4#8) ∧ 1 ≤ 1 ∧ 1 ≤ 62 ∧ 1 ≤ 63 := by decide
theorem witness_PrevAndRunFollowAcceptedPixels : ∃ t u, exec (.start 1 1 3) State.reset = .next t ∧
    runSteps [[0#8, 0#8, 0#8], [10, 20, 30], [10, 20, 30]].length
      { t with port := [[0#8, 0#8, 0#8], [10, 20, 30], [10, 20, 30]].map fun p => .command (.pixel p) } = .next u := by
  obtain ⟨u, hu⟩ := next_of_completes (o := runSteps 3 { opened 1 1 3 State.reset with
    port := [[0#8, 0#8, 0#8], [10, 20, 30], [10, 20, 30]].map fun p => .command (.pixel p) }) (by decide)
  exact ⟨_, u, rfl, hu⟩
theorem witness_ScanInvariantKeptByEveryStep :
    ∃ t, step { withSlot 9 teal (inPass 3 teal 61) with port := [.command (.pixel [10, 20, 30])] } = .next t :=
  next_of_completes (by decide)

theorem witness_StreamInvariantKeptByEveryHostStep :
    StreamInv { State.reset with port := [.command (.start 1 1 4)] } ∧
    ∃ t, step { State.reset with port := [.command (.start 1 1 4)] } = .next t :=
  ⟨⟨⟨by decide, by decide, by decide, by decide, by decide, by decide, by decide⟩,
    by simp [hostDriven, Transaction.fromHost, Instr.isHostCommand], .idle rfl rfl⟩, next_of_completes (by decide)⟩
theorem witness_HardwareResetDiscardsPass :
    { inPass 4 teal 5 with port := [.reset, .command .finish] }.port = .reset :: [.command .finish] := by decide
/-- One state for each clause: a command; an element after a header; a HEADER, and INDEX 0, at an empty OUT; nothing. -/
theorem witness_StepRunsTheFetchedInstruction :
    { State.reset with port := [.command .finish] }.port = [.command .finish] ∧
    (({ cells := [(0, 0x71)] } : Memory).size ≠ 0 ∧ decodeElement [0x09] = .ok (.index 9, [])) ∧
    (State.reset.out.size = 0 ∧
      decodeHeader Magic.default [0x71, 0x6F, 0x69, 0x66, 0, 0, 0, 1, 0, 0, 0, 1, 4, 0] = .ok (.header 1 1 4, [])) ∧
    (State.reset.out.size = 0 ∧ decodeHeader Magic.default [0x00] = .error .notHeader ∧
      decodeElement [0x00] = .ok (.index 0, [])) ∧ State.reset.port = [] := by decide
/-- OutIsAppendOnly and PassRegistersChangeOnlyByStart: a PIXEL with 6 bytes, FINISH with 9. -/
theorem witness_OutIsAppendOnly : (inPass 4 black 62).out.wf ∧
    (∃ t, exec (.pixel [200, 100, 50, 128]) (inPass 4 black 62) = .next t) ∧
    (∃ t, exec .finish (inPass 4 black 62) = .next t) :=
  ⟨by decide, next_of_completes (by decide), next_of_completes (by decide)⟩
theorem witness_PassRegistersChangeOnlyByStart : ∃ t, exec (.luma 31 7 7) (inPass 4 black 62) = .next t :=
  next_of_completes (by decide)
theorem witness_NothingFollowsTheTerminator :
    let s := { afterPass with port := [.command (.start 1 1 4)] }
    s.phase = .done ∧ hostDriven s ∧ ∃ t, step s = .next t :=
  ⟨rfl, by simp [hostDriven, Transaction.fromHost, Instr.isHostCommand], next_of_completes (by decide)⟩
theorem witness_EveryPixelIsAccountedFor : (inPass 4 black 62).run.toNat ≤ 62 := by decide
/-- An RGB chunk in a 3-channel pass, a LUMA chunk, and an RGBA chunk in a 4-channel pass. -/
theorem witness_ChunksThatNeverOccur :
    ScanInv (withSlot 9 teal (inPass 3 teal 61)) ∧ ScanInv { State.reset with channels := 4 } ∧
    logicalPixel 3 [200, 100, 50] = some ⟨200, 100, 50, 255⟩ ∧ logicalPixel 4 [200, 100, 50, 128] = some ⟨200, 100, 50, 128⟩ ∧
    .rgb 200 100 50 ∈ (classify ⟨200, 100, 50, 255⟩ (withSlot 9 teal (inPass 3 teal 61))).1 ∧
    .luma 31 7 (-8) ∈ (classify ⟨38, 31, 23, 255⟩ { State.reset with channels := 4 }).1 ∧
    .rgba 200 100 50 128 ∈ (classify ⟨200, 100, 50, 128⟩ { State.reset with channels := 4 }).1 :=
  ⟨pass_scanInv, ⟨by decide, by decide, by decide, by decide, by decide, by decide, by decide⟩, by decide⟩
/-- V-S4's colours: p = (64,0,0,255) in slot 53; q in slot 9 (p stays), and q = (0,0,0,255) in slot 53 (p is evicted). -/
theorem witness_CacheCarriesColoursToLaterPixels :
    let s := inPass 4 black 0
    let p : Pixel := ⟨64, 0, 0, 255⟩
    s.out.wf ∧ logicalPixel s.channels [64, 0, 0, 255] = some p ∧ p ≠ s.prev ∧
    (logicalPixel s.channels [10, 20, 30, 255] = some teal ∧ teal ≠ p ∧ slot teal ≠ slot p) ∧
    (logicalPixel s.channels [0, 0, 0, 255] = some black ∧ black ≠ p ∧ slot black = slot p) ∧
    completes (andThen (exec (.pixel [64, 0, 0, 255]) s) (exec (.pixel [10, 20, 30, 255]))) = true ∧
    completes (andThen (exec (.pixel [64, 0, 0, 255]) s) (exec (.pixel [0, 0, 0, 255]))) = true := by decide
theorem witness_WraparoundDifferenceIsUnique :
    (-128 ≤ (-128 : Int) ∧ (-128 : Int) ≤ 127 ∧ wsub8 0 128 = -128) ∧
    (-128 ≤ (127 : Int) ∧ (127 : Int) ≤ 127 ∧ wsub8 127 0 = 127) ∧ wsub8 0 255 = 1 := by decide
theorem witness_LumaTestNeedsNoWraparound : lumaEligible (deltas ⟨60, 68, 75, 255⟩ ⟨100, 100, 100, 255⟩) = true := by
  decide
/-- V-C8: the hit on the sentinel; START's fresh cache; a 3-channel pixel. -/
theorem witness_OnlyTransparentBlackHitsFreshSlot :
    ((cacheLookup ⟨0, 0, 0, 0⟩ (inPass 4 black 0)).2 = true ∧
      readSlot (slot ⟨0, 0, 0, 0⟩) (inPass 4 black 0) = ⟨0#8, 0#8, 0#8, 0#8⟩) ∧
    (∃ t, exec (.start 1 1 4) State.reset = .next t) ∧ logicalPixel 3#8 [0, 0, 0] = some black :=
  ⟨by decide, next_of_completes (by decide), by decide⟩
/-- The ends of every range of R47. -/
theorem witness_FirstByteMapCoversAllBytes :
    ((0x3F : Byte).toNat ≤ 0x3F) ∧ (0x40 ≤ (0x40 : Byte).toNat ∧ (0x7F : Byte).toNat ≤ 0x7F) ∧
    (0x80 ≤ (0x80 : Byte).toNat ∧ (0xBF : Byte).toNat ≤ 0xBF) ∧ (0xC0 ≤ (0xC0 : Byte).toNat ∧ (0xFD : Byte).toNat ≤ 0xFD) ∧
    (0xFE : Byte).toNat = 0xFE ∧ (0xFF : Byte).toNat = 0xFF := by decide
/-- A chunk, END and a HEADER. -/
theorem witness_DecodeEncodeRoundTrip :
    ((Instr.luma 31 7 (-8)).wellFormed = true ∧ encode Magic.default (.luma 31 7 (-8)) = some [0xBF, 0xF0] ∧
      (Instr.luma 31 7 (-8)).isChunk = true ∧ ([0xBF, 0xF0] ++ [0x00]).take 8 ≠ endBytes) ∧
    (Instr.endMark.wellFormed = true ∧ encode Magic.default .endMark = some endBytes) ∧
    ((Instr.header 1 1 4).wellFormed = true ∧
      encode Magic.default (.header 1 1 4) = some [0x71, 0x6F, 0x69, 0x66, 0, 0, 0, 1, 0, 0, 0, 1, 4, 0]) := by decide
theorem witness_EncodeDecodeRoundTrip : decodeChunk [0xBF, 0xF0, 0x07] = .ok (.luma 31 7 (-8), [0x07]) := by decide

end Sys2Proof.Tests
end

section
/-!
PROOFS. The scope family (00_scope.md): wraparound subtraction (R8).
-/
namespace Sys2Proof.Machine

/-- A wraparound difference is a signed byte (R8). -/
theorem wsub8_range (a b : Byte) : -128 ≤ wsub8 a b ∧ wsub8 a b ≤ 127 := by
  obtain ⟨lo, hi, -⟩ := s8_spec ((a.toNat : Int) - b.toNat)
  exact ⟨lo, hi⟩

/-- A byte determines the number of [-128, 127] it stands for. -/
theorem eq_of_ofInt8_eq {d e : Int} (hd : -128 ≤ d ∧ d ≤ 127) (he : -128 ≤ e ∧ e ≤ 127)
    (h : BitVec.ofInt 8 d = BitVec.ofInt 8 e) : d = e := by
  have toInt_ofInt {n : Int} (hn : -128 ≤ n ∧ n ≤ 127) : (BitVec.ofInt 8 n).toInt = n :=
    BitVec.toInt_ofInt_eq_self (by decide) hn.1 (Int.lt_add_one_of_le hn.2)
  rw [← toInt_ofInt hd, ← toInt_ofInt he, h]

/-- Settles O37: `add_wsub8` says that the wraparound difference undoes the addition; any other number of the range
that does so stands for the same byte, so it is the same number. -/
theorem wraparoundDifferenceIsUnique : Obligations.WraparoundDifferenceIsUnique := by
  intro a b d lo hi
  constructor
  · rintro rfl
    exact (add_wsub8 a b).symm
  · intro h
    have hbytes : b + BitVec.ofInt 8 (wsub8 a b) = b + BitVec.ofInt 8 d := (add_wsub8 a b).trans h
    exact eq_of_ofInt8_eq (wsub8_range a b) ⟨lo, hi⟩ (add_left_cancel hbytes)

end Sys2Proof.Machine
end

section
/-!
PROOFS. The state family (10_state.md), its layer of facts: what a classified pixel and the three pass operations
(`opened`, `accepted`, `closed`) do to each field, all that `exec` can do, and the induction over the commands that
every invariant of the block goes through.
-/
namespace Sys2Proof.Machine

/-! ### The classifier on `prev`, `run` and the cache -/

@[simp] theorem ownChunk_run (px : Pixel) (s : State) : (ownChunk px s).2.run = s.run := by
  rcases ownChunk_cases px s with ⟨-, e⟩ | ⟨-, e⟩ <;> rw [e] <;> rfl

@[simp] theorem ownChunk_prev (px : Pixel) (s : State) : (ownChunk px s).2.prev = px := by
  rcases ownChunk_cases px s with ⟨-, e⟩ | ⟨-, e⟩ <;> rw [e] <;> rfl

/-- A pixel's own chunk writes no slot but the pixel's, and that only with the pixel (R63, R70). -/
theorem readSlot_ownChunk (k : Slot) (px : Pixel) (s : State) :
    readSlot k (ownChunk px s).2 = readSlot k s ∨ k = slot px ∧ readSlot k (ownChunk px s).2 = px := by
  rcases ownChunk_cases px s with ⟨-, e⟩ | ⟨-, e⟩ <;> rw [e]
  · exact .inl rfl
  · have hw : readSlot k (afterMiss px s) = if k = slot px then px else readSlot k s :=
      readSlot_cacheWrite k (slot px) px s
    by_cases hk : k = slot px
    · exact .inr ⟨hk, hw.trans (if_pos hk)⟩
    · exact .inl (hw.trans (if_neg hk))

/-- After a pixel `prev` is that pixel, whichever chunk it took (R75). -/
@[simp] theorem classify_prev (px : Pixel) (s : State) : (classify px s).2.prev = px := by
  rcases classify_cases px s with ⟨hp, -, e⟩ | ⟨hp, -, e⟩ | ⟨-, -, e⟩ | ⟨-, -, e⟩ <;> rw [e]
  · exact hp.symm
  · exact hp.symm
  · exact ownChunk_prev px s
  · exact ownChunk_prev px _

/-- The counter after a pixel: one more while the run goes on, else 1 for a pixel equal to `prev`, else 0. -/
theorem classify_run_cases (px : Pixel) (s : State) :
    (px = s.prev ∧ s.run.toNat < 62 ∧ (classify px s).2.run.toNat = s.run.toNat + 1) ∨
    (px = s.prev ∧ (classify px s).2.run.toNat = 1) ∨
    (px ≠ s.prev ∧ (classify px s).2.run.toNat = 0) := by
  rcases classify_cases px s with ⟨hp, hr, e⟩ | ⟨hp, -, e⟩ | ⟨hp, h0, e⟩ | ⟨hp, -, e⟩ <;> rw [e]
  · exact .inl ⟨hp, hr, by simp [BitVec.toNat_add]; omega⟩
  · exact .inr (.inl ⟨hp, rfl⟩)
  · exact .inr (.inr ⟨hp, by simp [h0]⟩)
  · exact .inr (.inr ⟨hp, by simp⟩)

/-- A pixel keeps `run` in its legal range (R13). -/
theorem classify_run_le (px : Pixel) {s : State} (h : s.run.toNat ≤ 62) : (classify px s).2.run.toNat ≤ 62 := by
  rcases classify_run_cases px s with ⟨-, hr, e⟩ | ⟨-, e⟩ | ⟨-, e⟩ <;> omega

/-- A pixel writes no slot but its own, and that only with itself (R63, R66). -/
theorem readSlot_classify (k : Slot) (px : Pixel) (s : State) :
    readSlot k (classify px s).2 = readSlot k s ∨ k = slot px ∧ readSlot k (classify px s).2 = px := by
  rcases classify_cases px s with ⟨-, -, e⟩ | ⟨-, -, e⟩ | ⟨-, -, e⟩ | ⟨-, -, e⟩ <;> rw [e]
  · exact .inl rfl
  · exact .inl rfl
  · exact readSlot_ownChunk k px s
  · exact readSlot_ownChunk k px (setRun 0#6 s)

/-! ### Bytes of a chunk, of a pixel and of the flush -/

/-- The packer writes an open run as the layout of R41 does. -/
theorem packFields_run {r : BitVec 6} (h : r ≠ 0#6) : packFields (.run r.toNat) = [runByte r] := by
  revert r; decide

/-- The end-of-stream flush as bytes (R78). -/
theorem flushRun_bytes (s : State) : (flushRun s).1.flatMap packFields = flushBytes s.run := by
  rcases flushRun_cases s with ⟨h0, e⟩ | ⟨h0, e⟩ <;> rw [e]
  · exact (if_pos h0).symm
  · simp [flushBytes, h0, packFields_run h0]

/-- The flush leaves the counter at 0 and all else as it was (R78). -/
theorem flushRun_state (s : State) : (flushRun s).2 = setRun 0#6 s := by
  rcases flushRun_cases s with ⟨h0, e⟩ | ⟨-, e⟩ <;> rw [e]
  rw [← h0, setRun_self]

theorem length_flushBytes_le (r : BitVec 6) : (flushBytes r).length ≤ 1 := by
  unfold flushBytes; split <;> simp

@[simp] theorem flushBytes_zero : flushBytes 0#6 = [] := rfl

theorem length_flushBytes_of_ne {r : BitVec 6} (h : r ≠ 0#6) : (flushBytes r).length = 1 := by
  simp [flushBytes, h]

/-- The raw chunk of a pass takes `CHANNELS + 1` bytes (R84, R85). -/
theorem length_packFields_rawChunk {c : Byte} (hc : legalChannels c = true) (px : Pixel) :
    (packFields (rawChunk c px)).length = c.toNat + 1 := by
  rcases legalChannels_iff.1 hc with rfl | rfl <;> rfl

/-- No chunk of a pixel's own is longer than the raw one (R91). -/
theorem length_ownChunk_le (px : Pixel) {s : State} (hc : legalChannels s.channels = true) :
    (packFields (ownChunk px s).1).length ≤ s.channels.toNat + 1 := by
  have h3 : 3 ≤ s.channels.toNat := by rcases legalChannels_iff.1 hc with e | e <;> simp [e]
  rcases ownChunk_cases px s with ⟨-, e⟩ | ⟨-, e⟩ <;> simp only [e]
  · simp [packFields]
  · rcases missChunk_cases s.channels px s.prev with ⟨-, m⟩ | ⟨-, -, m⟩ | ⟨-, -, m⟩ <;> rw [m]
    · simp [packFields]
    · simp only [packFields, List.length_cons, List.length_nil]; omega
    · exact (length_packFields_rawChunk hc px).le

/-- A pixel costs at most one raw chunk, with the byte an open run will take counted when the run is opened (R91). -/
theorem length_pixelBytes_le (px : Pixel) {s : State} (hc : legalChannels s.channels = true) :
    (pixelBytes px s).length + (flushBytes (classify px s).2.run).length ≤
      (flushBytes s.run).length + (s.channels.toNat + 1) := by
  unfold pixelBytes
  rcases classify_cases px s with ⟨-, -, e⟩ | ⟨-, hr, e⟩ | ⟨-, h0, e⟩ | ⟨-, h0, e⟩ <;> rw [e]
  · have := length_flushBytes_le (s.run + 1#6)
    simp only [List.flatMap_nil, List.length_nil, setRun_run]
    omega
  · have h0 : s.run ≠ 0#6 := by rintro h; simp [h] at hr
    simp [packFields_run h0, length_flushBytes_of_ne h0, length_flushBytes_of_ne (r := 1#6) (by decide)]
    omega
  · simpa [h0] using length_ownChunk_le px hc
  · have hown := length_ownChunk_le px (s := setRun 0#6 s) hc
    simp only [setRun_channels] at hown
    simp [packFields_run h0, length_flushBytes_of_ne h0]
    omega

/-! ### The state START leaves -/

@[simp] theorem opened_prev (w h : Word32) (c : Byte) (s : State) :
    (opened w h c s).prev = Pixel.opaqueBlack := rfl
@[simp] theorem opened_run (w h : Word32) (c : Byte) (s : State) : (opened w h c s).run = 0#6 := rfl
@[simp] theorem opened_width (w h : Word32) (c : Byte) (s : State) : (opened w h c s).width = w := rfl
@[simp] theorem opened_height (w h : Word32) (c : Byte) (s : State) : (opened w h c s).height = h := rfl
@[simp] theorem opened_channels (w h : Word32) (c : Byte) (s : State) : (opened w h c s).channels = c := rfl
@[simp] theorem opened_phase (w h : Word32) (c : Byte) (s : State) : (opened w h c s).phase = .body := rfl
@[simp] theorem opened_npix (w h : Word32) (c : Byte) (s : State) : (opened w h c s).npix = 0 := rfl
@[simp] theorem opened_config (w h : Word32) (c : Byte) (s : State) : (opened w h c s).config = s.config := rfl
@[simp] theorem opened_port (w h : Word32) (c : Byte) (s : State) : (opened w h c s).port = s.port := rfl
@[simp] theorem readSlot_opened (k : Slot) (w h : Word32) (c : Byte) (s : State) :
    readSlot k (opened w h c s) = Pixel.transparentBlack :=
  readSlot_initPass k s

/-- START leaves the header of its own pass in OUT, and nothing else (R20, R44). -/
@[simp] theorem opened_out (w h : Word32) (c : Byte) (s : State) :
    (opened w h c s).out = Memory.append { cells := [] } (passHeader (opened w h c s)) := rfl

/-- What START leaves depends on the parameters and the port alone (R22). -/
theorem opened_congr (w h : Word32) (c : Byte) {s s' : State} (hcfg : s.config = s'.config)
    (hport : s.port = s'.port) : opened w h c s = opened w h c s' := by
  cases s; cases s'; cases hcfg; cases hport; rfl

/-! ### The state an accepted pixel leaves -/

section
variable (px : Pixel) (s : State)

@[simp] theorem accepted_prev : (accepted px s).prev = px := classify_prev px s
@[simp] theorem accepted_run : (accepted px s).run = (classify px s).2.run := rfl
@[simp] theorem accepted_npix : (accepted px s).npix = s.npix + 1 := rfl
@[simp] theorem readSlot_accepted (k : Slot) : readSlot k (accepted px s) = readSlot k (classify px s).2 := rfl
@[simp] theorem accepted_width : (accepted px s).width = s.width := (classify_frame px s).1
@[simp] theorem accepted_height : (accepted px s).height = s.height := (classify_frame px s).2.1
@[simp] theorem accepted_channels : (accepted px s).channels = s.channels := (classify_frame px s).2.2.1
@[simp] theorem accepted_phase : (accepted px s).phase = s.phase := (classify_frame px s).2.2.2.1
@[simp] theorem accepted_out : (accepted px s).out = s.out.append (pixelBytes px s) :=
  congrArg (Memory.append · (pixelBytes px s)) (classify_frame px s).2.2.2.2.2.1
@[simp] theorem accepted_config : (accepted px s).config = s.config := (classify_frame px s).2.2.2.2.2.2.1
@[simp] theorem accepted_port : (accepted px s).port = s.port := (classify_frame px s).2.2.2.2.2.2.2

end

/-! ### The state FINISH leaves -/

/-- FINISH clears the counter, appends the flush and the terminator, and sets the phase (R53). -/
theorem closed_eq (s : State) :
    closed s = { s with run := 0#6, phase := .done, out := s.out.append (flushBytes s.run ++ terminatorBytes) } := by
  rw [closed, flushRun_bytes, flushRun_state, ← Memory.append_append]; rfl

section
variable (s : State)

@[simp] theorem closed_prev : (closed s).prev = s.prev := by rw [closed_eq]
@[simp] theorem closed_run : (closed s).run = 0#6 := by rw [closed_eq]
@[simp] theorem readSlot_closed (k : Slot) : readSlot k (closed s) = readSlot k s := by rw [closed_eq]; rfl
@[simp] theorem closed_width : (closed s).width = s.width := by rw [closed_eq]
@[simp] theorem closed_height : (closed s).height = s.height := by rw [closed_eq]
@[simp] theorem closed_channels : (closed s).channels = s.channels := by rw [closed_eq]
@[simp] theorem closed_phase : (closed s).phase = .done := rfl
@[simp] theorem closed_npix : (closed s).npix = s.npix := by rw [closed_eq]
@[simp] theorem closed_out : (closed s).out = s.out.append (flushBytes s.run ++ terminatorBytes) := by rw [closed_eq]
@[simp] theorem closed_config : (closed s).config = s.config := by rw [closed_eq]
@[simp] theorem closed_port : (closed s).port = s.port := by rw [closed_eq]

end

/-- The header of a pass is that of its parameters and pass registers. -/
theorem passHeader_congr {s t : State} (hcfg : t.config = s.config) (hw : t.width = s.width)
    (hh : t.height = s.height) (hc : t.channels = s.channels) : passHeader t = passHeader s := by
  simp only [passHeader, hcfg, hw, hh, hc]

@[simp] theorem passHeader_accepted (px : Pixel) (s : State) : passHeader (accepted px s) = passHeader s :=
  passHeader_congr (by simp) (by simp) (by simp) (by simp)

@[simp] theorem passHeader_closed (s : State) : passHeader (closed s) = passHeader s :=
  passHeader_congr (by simp) (by simp) (by simp) (by simp)

/-! ### All that an instruction can do -/

theorem eq_emit_of_emitChunk {k : Chunk} {s t : State} (h : emitChunk k s = .next t) : t = emit (packFields k) s := by
  rcases emitChunk_cases k s with ⟨-, e⟩ | ⟨-, e⟩ <;> rw [e] at h <;> cases h
  rfl

/-- All that `exec` can do: a row of the packer or of the formatter appends bytes to OUT, and a host command goes through
`opened`, `accepted` and `closed`. -/
theorem exec_cases {i : Instr} {s t : State} (he : exec i s = .next t) :
    (i.isHostCommand = false ∧ ∃ bytes, t = emit bytes s) ∨
    (∃ w h c, i = .start w h c ∧ s.phase ≠ .body ∧ legalChannels c = true ∧ t = opened w h c s) ∨
    (∃ bytes px, i = .pixel bytes ∧ s.phase = .body ∧ bytes.length = s.channels.toNat ∧
      logicalPixel s.channels bytes = some px ∧ t = accepted px s) ∨
    (i = .finish ∧ s.phase = .body ∧ t = closed s) ∨
    (∃ w h c input u, i = .encode w h c input ∧ s.phase ≠ .body ∧ legalChannels c = true ∧
      acceptPixels (pixelGroups c.toNat input) (opened w h c s) = .next u ∧ u.phase = .body ∧ t = closed u) := by
  cases i with
  | index slot => exact .inl ⟨rfl, _, eq_emit_of_emitChunk he⟩
  | diff dr dg db => exact .inl ⟨rfl, _, eq_emit_of_emitChunk he⟩
  | luma dg drg dbg => exact .inl ⟨rfl, _, eq_emit_of_emitChunk he⟩
  | run n => exact .inl ⟨rfl, _, eq_emit_of_emitChunk he⟩
  | rgb r g b => exact .inl ⟨rfl, _, eq_emit_of_emitChunk (k := .rgb r g b) he⟩
  | rgba r g b a => exact .inl ⟨rfl, _, eq_emit_of_emitChunk (k := .rgba r g b a) he⟩
  | header w h c => exact .inl ⟨rfl, _, (Host.Outcome.next.inj he).symm⟩
  | endMark => exact .inl ⟨rfl, _, (Host.Outcome.next.inj he).symm⟩
  | start w h c =>
    obtain ⟨hp, hc, ht⟩ := openPass_eq_next.1 he
    exact .inr (.inl ⟨w, h, c, rfl, hp, hc, ht⟩)
  | pixel bytes =>
    obtain ⟨hp, hl, px, hx, -, ht⟩ := acceptPixel_eq_next.1 he
    exact .inr (.inr (.inl ⟨bytes, px, rfl, hp, hl, hx, ht⟩))
  | finish =>
    obtain ⟨hp, -, ht⟩ := closePass_eq_next.1 he
    exact .inr (.inr (.inr (.inl ⟨rfl, hp, ht⟩)))
  | encode w h c input =>
    obtain ⟨o, ho, hrest⟩ := andThen_eq_next.1 he
    obtain ⟨hp, hc, rfl⟩ := openPass_eq_next.1 ho
    obtain ⟨u, hu, hclose⟩ := andThen_eq_next.1 hrest
    obtain ⟨hup, -, ht⟩ := closePass_eq_next.1 hclose
    exact .inr (.inr (.inr (.inr ⟨w, h, c, input, u, rfl, hp, hc, hu, hup, ht⟩)))

/-! ### The induction over the commands -/

/-- A property of the state that opening a pass, accepting a pixel and closing the pass each keep. -/
structure KeptByCommands (P : State → Prop) : Prop where
  opened   : ∀ {w h c s}, P s → s.phase ≠ .body → legalChannels c = true → P (opened w h c s)
  accepted : ∀ {bytes px s}, P s → s.phase = .body → logicalPixel s.channels bytes = some px → P (accepted px s)
  closed   : ∀ {s}, P s → s.phase = .body → P (closed s)

section
variable {P : State → Prop} (kept : KeptByCommands P)
include kept

theorem KeptByCommands.acceptPixels {ps : List (List Byte)} {s t : State} (hs : P s)
    (h : acceptPixels ps s = .next t) : P t := by
  induction ps generalizing s with
  | nil => exact Host.Outcome.next.inj h ▸ hs
  | cons p ps ih =>
    obtain ⟨u, hu, hrest⟩ := andThen_eq_next.1 h
    obtain ⟨hp, -, px, hx, -, rfl⟩ := acceptPixel_eq_next.1 hu
    exact ih (kept.accepted hs hp hx) hrest

/-- Every host command keeps such a property, ENCODE through all its pixels. -/
theorem KeptByCommands.hostCommand {i : Instr} {s t : State} (hi : i.isHostCommand = true) (hs : P s)
    (h : exec i s = .next t) : P t := by
  rcases exec_cases h with ⟨hrow, -⟩ | ⟨w, h, c, -, hp, hc, rfl⟩ | ⟨bytes, px, -, hp, -, hx, rfl⟩ |
    ⟨-, hp, rfl⟩ | ⟨w, h, c, input, u, -, hp, hc, hu, hup, rfl⟩
  · simp [hi] at hrow
  · exact kept.opened hs hp hc
  · exact kept.accepted hs hp hx
  · exact kept.closed hs hp
  · exact kept.closed (kept.acceptPixels (kept.opened hs hp hc) hu) hup

/-- Where an append to OUT keeps it too, every instruction does. -/
theorem KeptByCommands.exec (hemit : ∀ bytes s, P s → P (emit bytes s)) {i : Instr} {s t : State} (hs : P s)
    (h : exec i s = .next t) : P t := by
  by_cases hi : i.isHostCommand = true
  · exact kept.hostCommand hi hs h
  · rcases exec_cases h with ⟨-, bytes, rfl⟩ | ⟨_, _, _, rfl, -⟩ | ⟨_, _, rfl, -⟩ | ⟨rfl, -⟩ | ⟨_, _, _, _, _, rfl, -⟩
    · exact hemit bytes s hs
    all_goals exact absurd rfl hi

end

/-! ### What no instruction writes -/

/-- The parameters and the port of a state are those of `s₀`. -/
def SameConfigPort (s₀ s : State) : Prop := s.config = s₀.config ∧ s.port = s₀.port

theorem sameConfigPort_kept (s₀ : State) : KeptByCommands (SameConfigPort s₀) where
  opened hs _ _ := hs
  accepted {_ px s} hs _ _ := ⟨(accepted_config px s).trans hs.1, (accepted_port px s).trans hs.2⟩
  closed {s} hs _ := ⟨(closed_config s).trans hs.1, (closed_port s).trans hs.2⟩

/-- No instruction writes the parameters or the port. -/
theorem exec_config_port {i : Instr} {s t : State} (h : exec i s = .next t) :
    t.config = s.config ∧ t.port = s.port :=
  (sameConfigPort_kept s).exec (fun _ _ hs => hs) ⟨rfl, rfl⟩ h

end Sys2Proof.Machine
end

section
/-!
PROOFS. The state family (10_state.md): the invariants of the block and the registers of a pass.
-/
namespace Sys2Proof.Machine

/-! ### The scan invariant -/

theorem logicalPixel_three_alpha {bytes : List Byte} {px : Pixel} (h : logicalPixel 3#8 bytes = some px) :
    px.a = 255#8 := by
  match bytes, h with
  | r :: g :: b :: rest, h =>
    have hpx : (⟨r, g, b, 255#8⟩ : Pixel) = px := Option.some.inj h
    rw [← hpx]

theorem ScanInv.withPort {s : State} (h : ScanInv s) (port : List Transaction) : ScanInv { s with port := port } :=
  ⟨h.runLegal, h.runClosed, h.channels, h.prevAlpha, h.slotAlpha, h.slotHome, h.outWf⟩

theorem ScanInv.emit {s : State} (h : ScanInv s) (bytes : List Byte) : ScanInv (emit bytes s) :=
  ⟨h.runLegal, h.runClosed, h.channels, h.prevAlpha, h.slotAlpha, h.slotHome, Memory.wf_append h.outWf bytes⟩

@[simp] theorem readSlot_hardwareReset (k : Slot) (s : State) :
    readSlot k (hardwareReset s) = Pixel.transparentBlack :=
  readSlot_initPass k s

theorem scanInv_hardwareReset (s : State) : ScanInv (hardwareReset s) where
  runLegal := Nat.zero_le _
  runClosed _ := rfl
  channels hp := absurd rfl hp
  prevAlpha _ := rfl
  slotAlpha _ k := .inl (readSlot_hardwareReset k s)
  slotHome k := .inl (readSlot_hardwareReset k s)
  outWf := Memory.wf_empty

theorem scanInv_opened {w h : Word32} {c : Byte} (s : State) (hc : legalChannels c = true) :
    ScanInv (opened w h c s) where
  runLegal := Nat.zero_le _
  runClosed _ := rfl
  channels _ := hc
  prevAlpha _ := rfl
  slotAlpha _ k := .inl (readSlot_opened k w h c s)
  slotHome k := .inl (readSlot_opened k w h c s)
  outWf := Memory.wf_append Memory.wf_empty _

theorem ScanInv.accepted {bytes : List Byte} {px : Pixel} {s : State} (h : ScanInv s) (hp : s.phase = .body)
    (hx : logicalPixel s.channels bytes = some px) : ScanInv (accepted px s) where
  runLegal := classify_run_le px h.runLegal
  runClosed hnp := absurd ((accepted_phase px s).trans hp) hnp
  channels _ := by simpa using h.channels (by simp [hp])
  prevAlpha h3 := by
    rw [accepted_channels] at h3
    rw [h3] at hx
    simpa using logicalPixel_three_alpha hx
  slotAlpha h3 k := by
    rw [accepted_channels] at h3
    rcases readSlot_classify k px s with e | ⟨-, e⟩ <;> rw [readSlot_accepted, e]
    · exact h.slotAlpha h3 k
    · rw [h3] at hx
      exact .inr (logicalPixel_three_alpha hx)
  slotHome k := by
    rcases readSlot_classify k px s with e | ⟨hk, e⟩ <;> rw [readSlot_accepted, e]
    · exact h.slotHome k
    · exact .inr hk.symm
  outWf := by simpa using Memory.wf_append h.outWf (pixelBytes px s)

theorem ScanInv.closed {s : State} (h : ScanInv s) (hp : s.phase = .body) : ScanInv (closed s) where
  runLegal := by simp
  runClosed _ := closed_run s
  channels _ := by simpa using h.channels (by simp [hp])
  prevAlpha := by simpa using h.prevAlpha
  slotAlpha := by simpa using h.slotAlpha
  slotHome := by simpa using h.slotHome
  outWf := by simpa using Memory.wf_append h.outWf _

theorem scanInv_kept : KeptByCommands ScanInv where
  opened _ _ hc := scanInv_opened _ hc
  accepted h hp hx := h.accepted hp hx
  closed h hp := h.closed hp

theorem ScanInv.exec {i : Instr} {s t : State} (h : ScanInv s) (he : exec i s = .next t) : ScanInv t :=
  scanInv_kept.exec (fun bytes _ hs => hs.emit bytes) h he

/-- Settles O26: a step is a reset, an instruction in the state it was taken from, or nothing; the instructions keep the
invariant because opening a pass, a pixel, closing a pass and an append each do. -/
theorem scanInvariantKeptByEveryStep : Obligations.ScanInvariantKeptByEveryStep := by
  intro s t hs hstep
  rcases step_cases s with ⟨-, e⟩ | ⟨rest, -, e⟩ | ⟨i, rest, -, e⟩ | ⟨bytes, rest, i, tail, -, -, e⟩ |
    ⟨bytes, rest, err, -, -, e⟩ <;> rw [e] at hstep
  · exact Host.Outcome.next.inj hstep ▸ hs
  · exact Host.Outcome.next.inj hstep ▸ scanInv_hardwareReset _
  · exact (hs.withPort rest).exec hstep
  · exact (hs.withPort rest).exec hstep
  · cases hstep

/-! ### The shape of OUT in a host-driven block -/

theorem StreamShape.withPort {s : State} (h : StreamShape s) (port : List Transaction) :
    StreamShape { s with port := port } := by
  cases h with
  | idle hp ho => exact .idle hp ho
  | body bs hp ho hb => exact .body bs hp ho hb
  | done bs hp ho hb => exact .done bs hp ho hb

/-- In an open pass OUT holds the header and a body within the bound (R32, R91). -/
theorem StreamShape.of_body {s : State} (h : StreamShape s) (hp : s.phase = .body) :
    ∃ bs, s.out.bytes = passHeader s ++ bs ∧
      bs.length + (flushBytes s.run).length ≤ (s.channels.toNat + 1) * s.npix := by
  cases h with
  | idle hp' => simp [hp] at hp'
  | body bs _ ho hb => exact ⟨bs, ho, hb⟩
  | done _ hp' => simp [hp] at hp'

theorem streamShape_opened (w h : Word32) (c : Byte) (s : State) : StreamShape (opened w h c s) :=
  .body [] rfl (by simp) (by simp)

theorem StreamShape.accepted {s : State} (h : StreamShape s) (px : Pixel) (hp : s.phase = .body)
    (hc : legalChannels s.channels = true) : StreamShape (accepted px s) := by
  obtain ⟨bs, ho, hb⟩ := h.of_body hp
  refine .body (bs ++ pixelBytes px s) (by simp [hp]) (by simp [ho]) ?_
  have hpx := length_pixelBytes_le px hc
  simp only [accepted_run, accepted_channels, accepted_npix, List.length_append, Nat.mul_add_one]
  omega

theorem StreamShape.closed {s : State} (h : StreamShape s) (hp : s.phase = .body) : StreamShape (closed s) := by
  obtain ⟨bs, ho, hb⟩ := h.of_body hp
  exact .done (bs ++ flushBytes s.run) rfl (by simp [ho, terminatorBytes, endBytes]) (by simpa using hb)

/-- The part of the stream invariant that does not speak of the port: the bound on a pixel rests on the legal channel
count, so the shape is carried together with the scan invariant. -/
def ScanShape (s : State) : Prop := ScanInv s ∧ StreamShape s

theorem scanShape_kept : KeptByCommands ScanShape where
  opened _ _ hc := ⟨scanInv_opened _ hc, streamShape_opened _ _ _ _⟩
  accepted {_ px _} h hp hx := ⟨h.1.accepted hp hx, h.2.accepted px hp (h.1.channels (by simp [hp]))⟩
  closed h hp := ⟨h.1.closed hp, h.2.closed hp⟩

theorem hostDriven_cons {s : State} {x : Transaction} {rest : List Transaction} (h : hostDriven s)
    (hport : s.port = x :: rest) : x.fromHost = true ∧ ∀ y ∈ rest, y.fromHost = true := by
  simpa [hostDriven, hport] using h

/-- Settles O27: the port of a host-driven block holds resets and host commands only; a reset empties OUT, and the
commands keep the shape together with the scan invariant. -/
theorem streamInvariantKeptByEveryHostStep : Obligations.StreamInvariantKeptByEveryHostStep := by
  intro s t hs hstep
  rcases step_cases s with ⟨-, e⟩ | ⟨rest, hport, e⟩ | ⟨i, rest, hport, e⟩ | ⟨bytes, rest, i, tail, hport, -, -⟩ |
    ⟨bytes, rest, err, hport, -, -⟩
  · exact Host.Outcome.next.inj (e.symm.trans hstep) ▸ hs
  · rw [← Host.Outcome.next.inj (e.symm.trans hstep)]
    exact ⟨scanInv_hardwareReset _, (hostDriven_cons hs.host hport).2, .idle rfl rfl⟩
  · obtain ⟨hi, hrest⟩ := hostDriven_cons hs.host hport
    have hexec : exec i { s with port := rest } = .next t := e.symm.trans hstep
    obtain ⟨hscan, hshape⟩ :=
      scanShape_kept.hostCommand hi ⟨hs.scan.withPort rest, hs.shape.withPort rest⟩ hexec
    have htp : t.port = rest := (exec_config_port hexec).2
    exact ⟨hscan, by rw [hostDriven, htp]; exact hrest, hshape⟩
  · exact absurd (hostDriven_cons hs.host hport).1 Bool.false_ne_true
  · exact absurd (hostDriven_cons hs.host hport).1 Bool.false_ne_true

/-- Settles O28: the values are those of R21 by definition, and OUT is empty in IDLE with nothing on the port. -/
theorem resetMeetsInvariants : Obligations.ResetMeetsInvariants := by
  have hhost : hostDriven State.reset := fun _ h => nomatch h
  exact ⟨⟨scanInv_hardwareReset State.reset, hhost, .idle rfl rfl⟩, rfl, rfl, rfl, rfl, rfl, rfl, rfl, rfl, rfl, rfl, rfl⟩

/-! ### Passes are independent -/

/-- Outside a pass, START answers from its operands, the parameters and the port alone (R22). -/
theorem openPass_congr (w h : Word32) (c : Byte) {s s' : State} (hp : s.phase ≠ .body) (hp' : s'.phase ≠ .body)
    (hcfg : s.config = s'.config) (hport : s.port = s'.port) : openPass w h c s = openPass w h c s' := by
  rcases openPass_cases w h c s with ⟨hb, -⟩ | ⟨-, hc, e⟩ | ⟨-, hc, e⟩
  · exact absurd hb hp
  · rcases openPass_cases w h c s' with ⟨hb, -⟩ | ⟨-, -, e'⟩ | ⟨-, hc', -⟩
    · exact absurd hb hp'
    · exact e.trans e'.symm
    · exact absurd (hc.symm.trans hc') Bool.false_ne_true
  · rw [e, opened_congr w h c hcfg hport]
    exact (openPass_eq_next.2 ⟨hp', hc, rfl⟩).symm

/-- Settles O23: both commands see the state they start from only through `openPass`. -/
theorem noStateSurvivesIntoNextPass : Obligations.NoStateSurvivesIntoNextPass := by
  intro w h c input s s' hp hp' hcfg hport
  have hopen := openPass_congr w h c hp hp' hcfg hport
  exact ⟨hopen, by simp only [exec, execEncode, hopen]⟩

/-! ### `prev`, `run` and `npix` over a pass -/

/-- After the pixels `pxs` of a pass with `c` channels: `prev` is the last of them, they end in `run` copies of it, and
`npix` counts them (R14, R17, R75). -/
structure FollowsPixels (c : Byte) (pxs : List Pixel) (s : State) : Prop where
  channels : s.channels = c
  last     : s.prev = pxs.getLast?.getD Pixel.opaqueBlack
  tail     : ∃ front, pxs = front ++ List.replicate s.run.toNat s.prev
  count    : s.npix = pxs.length

theorem followsPixels_opened (w h : Word32) (c : Byte) (s : State) : FollowsPixels c [] (opened w h c s) :=
  ⟨rfl, rfl, ⟨[], rfl⟩, rfl⟩

theorem FollowsPixels.withPort {c : Byte} {pxs : List Pixel} {s : State} (h : FollowsPixels c pxs s)
    (port : List Transaction) : FollowsPixels c pxs { s with port := port } :=
  ⟨h.channels, h.last, h.tail, h.count⟩

/-- One more pixel: it lengthens the run, starts a new one of length 1, or leaves none open. -/
theorem FollowsPixels.accepted {c : Byte} {pxs : List Pixel} {s : State} (h : FollowsPixels c pxs s) (px : Pixel) :
    FollowsPixels c (pxs ++ [px]) (accepted px s) where
  channels := by simpa using h.channels
  last := by simp
  tail := by
    obtain ⟨front, hfront⟩ := h.tail
    simp only [accepted_prev, accepted_run]
    rcases classify_run_cases px s with ⟨hp, -, e⟩ | ⟨-, e⟩ | ⟨-, e⟩ <;> rw [e]
    · refine ⟨front, ?_⟩
      rw [List.replicate_succ', ← List.append_assoc, hp, ← hfront]
    · exact ⟨pxs, rfl⟩
    · exact ⟨pxs ++ [px], by simp⟩
  count := by simp [h.count]

/-- Steps that serve PIXELs from the port add their pixels, in order, to those already followed. -/
theorem FollowsPixels.runSteps {c : Byte} {ps : List (List Byte)} {pxs : List Pixel} {s u : State}
    (h : FollowsPixels c pxs s) (hport : s.port = ps.map fun p => .command (.pixel p))
    (hrun : runSteps ps.length s = .next u) :
    ∃ qs : List Pixel, ps.map (logicalPixel c) = qs.map some ∧ FollowsPixels c (pxs ++ qs) u := by
  induction ps generalizing pxs s with
  | nil =>
    cases hrun
    exact ⟨[], rfl, by simpa using h⟩
  | cons p ps ih =>
    obtain ⟨v, hstep, hrest⟩ := andThen_eq_next.1 hrun
    have hserve : step s = acceptPixel p { s with port := ps.map fun q => .command (.pixel q) } := by
      simp only [step, hport, List.map_cons]
      rfl
    obtain ⟨-, -, px, hx, -, rfl⟩ := acceptPixel_eq_next.1 (hserve.symm.trans hstep)
    have hx' : logicalPixel c p = some px := h.channels ▸ hx
    obtain ⟨qs, hqs, hu⟩ := ih ((h.withPort _).accepted px) (accepted_port px _) hrest
    exact ⟨px :: qs, by simp [hx', hqs], by simpa using hu⟩

/-- Settles O25: START follows no pixels yet, each step follows one more, and a list that ends in `run` copies of `prev`
has nothing but `prev` among its last `run` members. -/
theorem prevAndRunFollowAcceptedPixels : Obligations.PrevAndRunFollowAcceptedPixels := by
  intro w h c ps s t u hstart hrun
  obtain ⟨-, -, rfl⟩ := openPass_eq_next.1 hstart
  obtain ⟨pxs, hpxs, hu⟩ := ((followsPixels_opened w h c s).withPort _).runSteps rfl hrun
  rw [List.nil_append] at hu
  obtain ⟨front, hfront⟩ := hu.tail
  have hlen : pxs.length = front.length + u.run.toNat := by rw [hfront]; simp
  have hdrop : pxs.drop (pxs.length - u.run.toNat) = List.replicate u.run.toNat u.prev := by
    rw [hlen, Nat.add_sub_cancel, hfront]
    simp
  refine ⟨pxs, hpxs, hu.last, by omega, fun px hpx => ?_, hu.count⟩
  rw [hdrop] at hpx
  exact List.eq_of_mem_replicate hpx

/-! ### The registers of a pass -/

/-- Settles O32: `exec_config_port` is the frame of every instruction; of those that do not open a pass, a row only
appends, a pixel keeps the pass registers and the phase, and FINISH keeps the pass registers. -/
theorem passRegistersChangeOnlyByStart : Obligations.PassRegistersChangeOnlyByStart := by
  intro i s t he
  obtain ⟨hcfg, hport⟩ := exec_config_port he
  refine ⟨hcfg, hport, fun hstart hencode => ?_⟩
  rcases exec_cases he with ⟨-, bytes, rfl⟩ | ⟨w, h, c, hi, -⟩ | ⟨bytes, px, -, -, -, -, rfl⟩ | ⟨hi, -, rfl⟩ |
    ⟨w, h, c, input, -, hi, -⟩
  · exact ⟨rfl, rfl, rfl, fun _ => rfl⟩
  · exact absurd hi (hstart w h c)
  · exact ⟨accepted_width px s, accepted_height px s, accepted_channels px s, fun _ => accepted_phase px s⟩
  · exact ⟨closed_width s, closed_height s, closed_channels s, fun hne => absurd hi hne⟩
  · exact absurd hi (hencode w h c input)

end Sys2Proof.Machine
end

section
/-!
PROOFS. The memory family (20_memory.md): the header in OUT, the stored pixels of IN, and the append-only OUT.
-/
namespace Sys2Proof.Machine

/-! ### The header in OUT -/

/-- Byte `k` of a 32-bit number in stream order, the most significant first (R27). -/
theorem word32Bytes_getElem? (w : Word32) {k : Nat} (hk : k < 4) :
    (word32Bytes w)[k]? = some (BitVec.ofNat 8 (w.toNat / 2 ^ (8 * (3 - k)))) := by
  have field (low : Nat) : w.extractLsb' low 8 = BitVec.ofNat 8 (w.toNat / 2 ^ low) := by
    rw [BitVec.extractLsb', Nat.shiftRight_eq_div_pow]
  match k, hk with
  | 0, _ => exact congrArg some (field 24)
  | 1, _ => exact congrArg some (field 16)
  | 2, _ => exact congrArg some (field 8)
  | 3, _ => exact congrArg some (field 0)

/-- After START an address of OUT reads as that byte of the header (R24, R44). -/
theorem readByte_opened (w h : Word32) (c : Byte) (s : State) (a : Nat) :
    (opened w h c s).out.readByte a = (passHeader (opened w h c s))[a]? := by
  rw [opened_out, Memory.readByte_eq (Memory.wf_append Memory.wf_empty _), Memory.bytes_append, Memory.bytes_empty,
    List.nil_append]

/-- Settles O8: OUT reads as the header, whose bytes stand in the order MAGIC, width, height, CHANNELS, COLORSPACE; a
byte of the two numbers is given by `word32Bytes_getElem?`. -/
theorem headerBytesStandAtTheirAddresses : Obligations.HeaderBytesStandAtTheirAddresses := by
  intro w h c s t hstart
  obtain ⟨-, -, rfl⟩ := openPass_eq_next.1 hstart
  have hread := readByte_opened w h c s
  have hwidth (k : Nat) (hk : k < 4) : (passHeader (opened w h c s))[4 + k]? = (word32Bytes w)[k]? := by
    match k, hk with
    | 0, _ | 1, _ | 2, _ | 3, _ => rfl
  have hheight (k : Nat) (hk : k < 4) : (passHeader (opened w h c s))[8 + k]? = (word32Bytes h)[k]? := by
    match k, hk with
    | 0, _ | 1, _ | 2, _ | 3, _ => rfl
  refine ⟨hread 0, hread 1, hread 2, hread 3, fun k hk => ?_, fun k hk => ?_, hread 12, hread 13, fun a ha => ?_⟩
  · exact ⟨_, (hread _).trans ((hwidth k hk).trans (word32Bytes_getElem? w hk)), BitVec.toNat_ofNat _ _⟩
  · exact ⟨_, (hread _).trans ((hheight k hk).trans (word32Bytes_getElem? h hk)), BitVec.toNat_ofNat _ _⟩
  · exact (hread a).trans (List.getElem?_eq_none ha)

/-! ### The stored pixels of IN -/

/-- A read that ends within the first `n` bytes of IN does not see the rest. -/
theorem memRead_take (input : List Byte) {n addr len : Nat} (hn : addr + len ≤ n) :
    memRead (input.take n) addr len = memRead input addr len := by
  have hlen : len ≤ n - addr := by omega
  rw [memRead, List.drop_take, List.take_take, Nat.min_eq_left hlen, memRead]

/-- IN cut back to its complete groups has the same stored pixels (R26). -/
theorem pixelGroups_take (c : Nat) (input : List Byte) :
    pixelGroups c (input.take (input.length / c * c)) = pixelGroups c input := by
  have hcount : (input.take (input.length / c * c)).length / c = input.length / c := by
    rcases Nat.eq_zero_or_pos c with rfl | hc
    · simp
    · rw [List.length_take_of_le (Nat.div_mul_le_self _ _), Nat.mul_div_cancel _ hc]
  rw [pixelGroups, hcount, pixelGroups]
  refine List.map_congr_left fun i hi => memRead_take input ?_
  calc i * c + c = (i + 1) * c := (Nat.succ_mul i c).symm
    _ ≤ input.length / c * c := Nat.mul_le_mul_right c (List.mem_range.1 hi)

/-- Settles O21: ENCODE sees IN only through its stored pixels. -/
theorem encodeDropsTrailingGroup : Obligations.EncodeDropsTrailingGroup := by
  intro w h c input s
  simp only [exec, execEncode, pixelGroups_take]

/-! ### How much an instruction appends to OUT -/

/-- The longest chunk is RGBA (R85). -/
theorem length_packFields_le (k : Chunk) : (packFields k).length ≤ 5 := by
  cases k <;> simp [packFields]

/-- A pixel emits at most a RUN byte and one chunk of its own (R79, R108). -/
theorem length_pixelBytes_le_six (px : Pixel) (s : State) : (pixelBytes px s).length ≤ 6 := by
  have run_bytes (n : Nat) : (packFields (.run n)).length = 1 := rfl
  unfold pixelBytes
  rcases classify_cases px s with ⟨-, -, e⟩ | ⟨-, -, e⟩ | ⟨-, -, e⟩ | ⟨-, -, e⟩ <;> rw [e]
  · exact Nat.zero_le 6
  · simp [run_bytes]
  · simpa using (length_packFields_le (ownChunk px s).1).trans (by decide)
  · have hown := length_packFields_le (ownChunk px (setRun 0#6 s)).1
    simp only [List.flatMap_cons, List.flatMap_nil, List.append_nil, List.length_append, run_bytes]
    omega

/-- FINISH appends at most a RUN byte and the terminator (R53, R108). -/
theorem length_flush_terminator_le (r : BitVec 6) : (flushBytes r ++ terminatorBytes).length ≤ 9 := by
  rw [List.length_append]
  exact Nat.add_le_add_right (length_flushBytes_le r) 8

/-- A chunk row appends one packed chunk. -/
theorem emits_of_emitChunk {k : Chunk} {s t : State} (h : emitChunk k s = .next t) :
    ∃ bytes, bytes.length ≤ 14 ∧ t = emit bytes s :=
  ⟨_, (length_packFields_le k).trans (by decide), eq_emit_of_emitChunk h⟩

/-- A row of the packer or of the formatter appends its own bytes; the longest are those of HEADER (R30). -/
theorem exec_row_emits {i : Instr} {s t : State} (hi : i.isHostCommand = false) (h : exec i s = .next t) :
    ∃ bytes, bytes.length ≤ 14 ∧ t = emit bytes s := by
  cases i with
  | index slot => exact emits_of_emitChunk h
  | diff dr dg db => exact emits_of_emitChunk h
  | luma dg drg dbg => exact emits_of_emitChunk h
  | run n => exact emits_of_emitChunk h
  | rgb r g b => exact emits_of_emitChunk (k := .rgb r g b) h
  | rgba r g b a => exact emits_of_emitChunk (k := .rgba r g b a) h
  | header w h' c => exact ⟨headerBytes _ w h' c _, Nat.le_refl 14, (Host.Outcome.next.inj h).symm⟩
  | endMark => exact ⟨terminatorBytes, by decide, (Host.Outcome.next.inj h).symm⟩
  | start _ _ _ | pixel _ | finish | encode _ _ _ _ => exact nomatch hi

/-- Settles O31: a row appends its bytes, PIXEL those of its chunks, FINISH the flush and the terminator, and an append
is all that each does to OUT; START and ENCODE are excluded. -/
theorem outIsAppendOnly : Obligations.OutIsAppendOnly := by
  intro i s t hwf he hstart hencode
  rcases exec_cases he with ⟨hrow, -⟩ | ⟨w, h, c, hi, -⟩ | ⟨p, px, rfl, -, -, -, rfl⟩ | ⟨rfl, -, rfl⟩ |
    ⟨w, h, c, input, -, hi, -⟩
  · obtain ⟨bytes, hlen, rfl⟩ := exec_row_emits hrow he
    refine ⟨bytes, hlen, Memory.outGrows_append hwf bytes, ?_, ?_⟩
    · rintro p rfl
      exact nomatch hrow
    · rintro rfl
      exact nomatch hrow
  · exact absurd hi (hstart w h c)
  · have hlen := length_pixelBytes_le_six px s
    exact ⟨pixelBytes px s, hlen.trans (by decide), accepted_out px s ▸ Memory.outGrows_append hwf _, fun _ _ => hlen,
      fun hne => nomatch hne⟩
  · have hlen := length_flush_terminator_le s.run
    exact ⟨flushBytes s.run ++ terminatorBytes, hlen.trans (by decide), closed_out s ▸ Memory.outGrows_append hwf _,
      fun _ hne => (nomatch hne), fun _ => hlen⟩
  · exact absurd hi (hencode w h c input)

end Sys2Proof.Machine
end

section
/-!
PROOFS. The encoding family (30_encoding.md): the first-byte map (R47), the chunk layouts (R38 to R43), and
that the decoder and the encoder agree on them.
-/
namespace Sys2Proof

/-! ### The first-byte map (R47) -/

section
variable (x : BitVec 6)

theorem kindRow?_index : kindRow? (0b00#2 ++ x) = some ⟨0xC0, 0x00, .index, 1⟩ := by revert x; decide

theorem kindRow?_diff : kindRow? (0b01#2 ++ x) = some ⟨0xC0, 0x40, .diff, 1⟩ := by revert x; decide

theorem kindRow?_luma : kindRow? (0b10#2 ++ x) = some ⟨0xC0, 0x80, .luma, 2⟩ := by revert x; decide

theorem kindRow?_run (hx : x.toNat ≤ 61) : kindRow? (0b11#2 ++ x) = some ⟨0xC0, 0xC0, .run, 1⟩ := by
  revert x; decide

end

theorem kindRow?_rgb : kindRow? 0xFE = some ⟨0xFF, 0xFE, .rgb, 4⟩ := by decide

theorem kindRow?_rgba : kindRow? 0xFF = some ⟨0xFF, 0xFF, .rgba, 5⟩ := by decide

theorem exists_tag_append (b : Byte) : ∃ (tag : BitVec 2) (x : BitVec 6), b = tag ++ x :=
  ⟨_, _, (BitVec.extractLsb'_append_extractLsb' (w := 2) (len := 6)).symm⟩

/-- Every byte is the first byte of one of the six kinds (R47). -/
theorem firstByte_cases (b0 : Byte) :
    (∃ x : BitVec 6, b0 = 0b00#2 ++ x) ∨ (∃ x : BitVec 6, b0 = 0b01#2 ++ x) ∨
    (∃ x : BitVec 6, b0 = 0b10#2 ++ x) ∨ (∃ x : BitVec 6, x.toNat ≤ 61 ∧ b0 = 0b11#2 ++ x) ∨
    b0 = 0xFE ∨ b0 = 0xFF := by
  obtain ⟨tag, x, rfl⟩ := exists_tag_append b0
  match tag with
  | 0b00#2 => exact .inl ⟨x, rfl⟩
  | 0b01#2 => exact .inr (.inl ⟨x, rfl⟩)
  | 0b10#2 => exact .inr (.inr (.inl ⟨x, rfl⟩))
  | 0b11#2 =>
    have htop : x.toNat ≤ 61 ∨ x = 62#6 ∨ x = 63#6 := by bv_omega
    rcases htop with hx | rfl | rfl
    · exact .inr (.inr (.inr (.inl ⟨x, hx, rfl⟩)))
    · exact .inr (.inr (.inr (.inr (.inl rfl))))
    · exact .inr (.inr (.inr (.inr (.inr rfl))))

/-- The number of a byte from its tag and the six bits after it. -/
theorem toNat_tag_append (tag : BitVec 2) (x : BitVec 6) : (tag ++ x).toNat = tag.toNat * 64 + x.toNat := by
  rw [BitVec.toNat_append, ← Nat.shiftLeft_add_eq_or_of_lt x.isLt, Nat.shiftLeft_eq]

/-! ### The chunk layouts (R38 to R43) -/

/-- A chunk and the word its layout gives it, field by field. The decoder reads exactly these words
(`decodeChunk_of_layout`, `exists_layout_of_decodeChunk`), and the encoder writes them for exactly the well-formed chunks
(`encode_of_layout`, `exists_layout`). -/
inductive ChunkLayout : Instr → List Byte → Prop
  | index (x : BitVec 6) : ChunkLayout (.index x.toNat) [0b00#2 ++ x]
  | diff (r g b : BitVec 2) :
      ChunkLayout (.diff ((r.toNat : Int) - 2) ((g.toNat : Int) - 2) ((b.toNat : Int) - 2)) [0b01#2 ++ r ++ g ++ b]
  | luma (g : BitVec 6) (r b : BitVec 4) :
      ChunkLayout (.luma ((g.toNat : Int) - 32) ((r.toNat : Int) - 8) ((b.toNat : Int) - 8)) [0b10#2 ++ g, r ++ b]
  | run (x : BitVec 6) (hx : x.toNat ≤ 61) : ChunkLayout (.run (x.toNat + 1)) [0b11#2 ++ x]
  | rgb (r g b : Byte) : ChunkLayout (.rgb r g b) [0xFE, r, g, b]
  | rgba (r g b a : Byte) : ChunkLayout (.rgba r g b a) [0xFF, r, g, b, a]

/-- The bits of DIFF as the tag and the six bits after it. -/
theorem diff_append_assoc (r g b : BitVec 2) : 0b01#2 ++ r ++ g ++ b = 0b01#2 ++ (r ++ g ++ b) := by
  rw [BitVec.append_assoc, BitVec.append_assoc, BitVec.append_assoc]; rfl

/-- Six bits are three fields of two, those of DIFF (R39). -/
theorem exists_append_three (x : BitVec 6) : ∃ r g b : BitVec 2, x = r ++ g ++ b := by
  obtain ⟨rg, b, rfl⟩ : ∃ (rg : BitVec 4) (b : BitVec 2), x = rg ++ b :=
    ⟨_, _, (BitVec.extractLsb'_append_extractLsb' (w := 4) (len := 2)).symm⟩
  obtain ⟨r, g, rfl⟩ : ∃ r g : BitVec 2, rg = r ++ g :=
    ⟨_, _, (BitVec.extractLsb'_append_extractLsb' (w := 2) (len := 2)).symm⟩
  exact ⟨r, g, b, rfl⟩

/-- A byte is two fields of four bits, those of LUMA's second byte (R40). -/
theorem exists_append_nibbles (b : Byte) : ∃ hi lo : BitVec 4, b = hi ++ lo :=
  ⟨_, _, (BitVec.extractLsb'_append_extractLsb' (w := 4) (len := 4)).symm⟩

/-- The decoder reads a layout's word as its chunk and leaves the bytes after it. -/
theorem decodeChunk_of_layout {i : Instr} {front : List Byte} (h : ChunkLayout i front) (rest : List Byte) :
    decodeChunk (front ++ rest) = .ok (i, rest) := by
  cases h with
  | index x =>
    simp only [decodeChunk, List.cons_append, List.nil_append, kindRow?_index, Option.map_some,
      BitVec.extractLsb'_append_eq_right]
  | diff r g b =>
    have hr : (0b01#2 ++ r ++ g ++ b).extractLsb' 4 2 = r := by
      simp only [BitVec.extractLsb'_append_eq_of_le, BitVec.extractLsb'_append_eq_right, Nat.reduceLeDiff, Nat.reduceSub]
    have hg : (0b01#2 ++ r ++ g ++ b).extractLsb' 2 2 = g := by
      simp only [BitVec.extractLsb'_append_eq_of_le, BitVec.extractLsb'_append_eq_right, Nat.le_refl, Nat.reduceSub]
    have hb : (0b01#2 ++ r ++ g ++ b).extractLsb' 0 2 = b := BitVec.extractLsb'_append_eq_right
    have hrow : kindRow? (0b01#2 ++ r ++ g ++ b) = some ⟨0xC0, 0x40, .diff, 1⟩ :=
      diff_append_assoc r g b ▸ kindRow?_diff _
    simp only [decodeChunk, List.cons_append, List.nil_append, hrow, Option.map_some, biasedField, hr, hg, hb]
  | luma g r b =>
    simp only [decodeChunk, List.cons_append, List.nil_append, kindRow?_luma, Option.map_some, biasedField,
      BitVec.extractLsb'_append_eq_right, BitVec.extractLsb'_append_eq_left]
  | run x hx =>
    simp only [decodeChunk, List.cons_append, List.nil_append, kindRow?_run x hx, Option.map_some,
      BitVec.extractLsb'_append_eq_right]
  | rgb r g b => rfl
  | rgba r g b a => rfl

/-- A biased field is the number it stands for, back in as many bits (R46). -/
theorem biasedBits_toNat_sub {width : Nat} (bias : Int) (x : BitVec width) :
    biasedBits width bias ((x.toNat : Int) - bias) = x := by
  rw [biasedBits, Int.sub_add_cancel, BitVec.ofInt_natCast, BitVec.ofNat_toNat, BitVec.setWidth_eq]

/-- A number in the range of a biased field is read back from it (R46). -/
theorem toNat_biasedBits_sub {width : Nat} {bias v : Int} (lo : 0 ≤ v + bias) (hi : v + bias < (2 ^ width : Nat)) :
    ((biasedBits width bias v).toNat : Int) - bias = v := by
  rw [biasedBits, BitVec.toNat_ofInt, Int.emod_eq_of_lt lo hi, Int.toNat_of_nonneg lo, Int.add_sub_cancel]

theorem ChunkLayout.isChunk {i : Instr} {front : List Byte} (h : ChunkLayout i front) : i.isChunk = true := by
  cases h <;> rfl

theorem ChunkLayout.wellFormed {i : Instr} {front : List Byte} (h : ChunkLayout i front) : i.wellFormed = true := by
  cases h with
  | index x => simp [Instr.wellFormed]; omega
  | diff r g b => simp [Instr.wellFormed, Machine.inRange_iff]; omega
  | luma g r b => simp [Instr.wellFormed, Machine.inRange_iff]; omega
  | run x hx => simp [Instr.wellFormed]; omega
  | rgb _ _ _ | rgba _ _ _ _ => rfl

/-- The encoder writes a layout's word for its chunk. -/
theorem encode_of_layout {i : Instr} {front : List Byte} (h : ChunkLayout i front) (magic : Magic) :
    encode magic i = some front := by
  cases h with
  | index x => simp [encode]
  | diff r g b => simp only [encode, biasedBits_toNat_sub]
  | luma g r b => simp only [encode, biasedBits_toNat_sub]
  | run x hx =>
    have hfield : biasedBits 6 (-1) (x.toNat + 1 : Nat) = x := biasedBits_toNat_sub (-1) x
    simp only [encode, hfield]
  | rgb _ _ _ | rgba _ _ _ _ => rfl

/-- Every well-formed chunk has a layout (R46, R50). -/
theorem exists_layout {i : Instr} (hw : i.wellFormed = true) (hc : i.isChunk = true) :
    ∃ front, ChunkLayout i front := by
  cases i with
  | index slot =>
    have hs : slot ≤ 63 := of_decide_eq_true hw
    have hlayout := ChunkLayout.index (BitVec.ofNat 6 slot)
    rw [BitVec.toNat_ofNat, Nat.mod_eq_of_lt (by omega)] at hlayout
    exact ⟨_, hlayout⟩
  | diff dr dg db =>
    simp only [Instr.wellFormed, Bool.and_eq_true, Machine.inRange_iff] at hw
    have hlayout := ChunkLayout.diff (biasedBits 2 2 dr) (biasedBits 2 2 dg) (biasedBits 2 2 db)
    rw [toNat_biasedBits_sub, toNat_biasedBits_sub, toNat_biasedBits_sub] at hlayout
    exact ⟨_, hlayout⟩
    all_goals omega
  | luma dg drg dbg =>
    simp only [Instr.wellFormed, Bool.and_eq_true, Machine.inRange_iff] at hw
    have hlayout := ChunkLayout.luma (biasedBits 6 32 dg) (biasedBits 4 8 drg) (biasedBits 4 8 dbg)
    rw [toNat_biasedBits_sub, toNat_biasedBits_sub, toNat_biasedBits_sub] at hlayout
    exact ⟨_, hlayout⟩
    all_goals omega
  | run n =>
    simp only [Instr.wellFormed, Bool.and_eq_true, decide_eq_true_eq] at hw
    have hfield := toNat_biasedBits_sub (width := 6) (bias := -1) (v := n) (by omega) (by omega)
    have hlayout := ChunkLayout.run (biasedBits 6 (-1) n) (by omega)
    rw [show (biasedBits 6 (-1) n).toNat + 1 = n by omega] at hlayout
    exact ⟨_, hlayout⟩
  | rgb r g b => exact ⟨_, .rgb r g b⟩
  | rgba r g b a => exact ⟨_, .rgba r g b a⟩
  | header _ _ _ | endMark | start _ _ _ | pixel _ | finish | encode _ _ _ _ => exact nomatch hc

/-- The bytes a decoded chunk was read from begin with a layout's word: the decoder reads no other. -/
theorem exists_layout_of_decodeChunk {bytes rest : List Byte} {i : Instr} (h : decodeChunk bytes = .ok (i, rest)) :
    ∃ front, ChunkLayout i front ∧ bytes = front ++ rest := by
  have read {front tail : List Byte} {j : Instr} (hj : ChunkLayout j front) (hb : bytes = front ++ tail) :
      ∃ front, ChunkLayout i front ∧ bytes = front ++ rest := by
    obtain ⟨rfl, rfl⟩ : j = i ∧ tail = rest := by simpa [hb, decodeChunk_of_layout hj] using h
    exact ⟨front, hj, hb⟩
  match bytes with
  | [] => exact nomatch h
  | b0 :: tail =>
    rcases firstByte_cases b0 with ⟨x, rfl⟩ | ⟨x, rfl⟩ | ⟨x, rfl⟩ | ⟨x, hx, rfl⟩ | rfl | rfl
    · exact read (.index x) rfl
    · obtain ⟨r, g, b, rfl⟩ := exists_append_three x
      exact read (.diff r g b) (by rw [diff_append_assoc]; rfl)
    · match tail with
      | b1 :: tail =>
        obtain ⟨r, b, rfl⟩ := exists_append_nibbles b1
        exact read (.luma x r b) rfl
      | [] => simp [decodeChunk, kindRow?_luma] at h
    · exact read (.run x hx) rfl
    · match tail, h with
      | r :: g :: b :: tail, _ => exact read (.rgb r g b) rfl
    · match tail, h with
      | r :: g :: b :: a :: tail, _ => exact read (.rgba r g b a) rfl

/-! ### The framing elements (R44, R45) -/

/-- The four bytes of a number, put together again, are the number (R27). -/
theorem word32OfBytes_extract (w : Word32) :
    word32OfBytes (w.extractLsb' 24 8) (w.extractLsb' 16 8) (w.extractLsb' 8 8) (w.extractLsb' 0 8) = w := by
  rw [word32OfBytes, BitVec.extractLsb'_append_extractLsb'_eq_extractLsb' (by rfl),
    BitVec.extractLsb'_append_extractLsb'_eq_extractLsb' (by rfl),
    BitVec.extractLsb'_append_extractLsb'_eq_extractLsb' (by rfl)]
  exact BitVec.extractLsb'_eq_self

theorem decodeElement_endBytes (rest : List Byte) : decodeElement (endBytes ++ rest) = .ok (.endMark, rest) :=
  if_pos rfl

/-- Away from the END pattern an element is a chunk (R49, log 3). -/
theorem decodeElement_of_ne {bytes : List Byte} (h : bytes.take 8 ≠ endBytes) :
    decodeElement bytes = decodeChunk bytes := if_neg h

theorem decodeElement_of_layout {i : Instr} {front rest : List Byte} (h : ChunkLayout i front)
    (hne : (front ++ rest).take 8 ≠ endBytes) : decodeElement (front ++ rest) = .ok (i, rest) :=
  (decodeElement_of_ne hne).trans (decodeChunk_of_layout h rest)

theorem decodeHeader_of_encode {magic : Magic} {w h : Word32} {c : Byte} {bytes : List Byte}
    (hc : legalChannels c = true) (he : encode magic (.header w h c) = some bytes) (rest : List Byte) :
    decodeHeader magic (bytes ++ rest) = .ok (.header w h c, rest) := by
  obtain rfl := Option.some.inj he
  simp [Magic.bytes, word32Bytes, decodeHeader, hc, word32OfBytes_extract]

theorem decodeAt_of_header {magic : Magic} {bytes : List Byte} {found : Instr × List Byte}
    (h : decodeHeader magic bytes = .ok found) : decodeAt magic true bytes = .ok found := by
  simp [decodeAt, h]

/-! ### The obligations -/

/-- Settles O42: a well-formed chunk has a layout, whose word is both what the encoder writes and what the decoder reads;
END is told by its pattern, and the fourteen bytes of HEADER are put together again. -/
theorem decodeEncodeRoundTrip : Obligations.DecodeEncodeRoundTrip := by
  intro magic i bytes rest hw he
  refine ⟨fun hc => ?_, ?_, ?_⟩
  · obtain ⟨front, hl⟩ := exists_layout hw hc
    obtain rfl : front = bytes := Option.some.inj ((encode_of_layout hl magic).symm.trans he)
    exact ⟨decodeChunk_of_layout hl rest, decodeElement_of_layout hl⟩
  · rintro rfl
    obtain rfl := Option.some.inj he
    exact decodeElement_endBytes rest
  · rintro w h c rfl
    exact decodeAt_of_header (decodeHeader_of_encode hw he rest)

/-- Settles O43: the bytes read begin with a layout's word, and the encoder writes that word for the layout's chunk. -/
theorem encodeDecodeRoundTrip : Obligations.EncodeDecodeRoundTrip := by
  intro magic bytes rest i h
  obtain ⟨front, hl, hbytes⟩ := exists_layout_of_decodeChunk h
  exact ⟨hl.wellFormed, hl.isChunk, front, encode_of_layout hl magic, hbytes⟩

/-- Settles O41: a byte with a 2-bit tag lies in the quarter of the range the tag names; 0xFE and 0xFF are the two tags
of eight bits. -/
theorem firstByteMapCoversAllBytes : Obligations.FirstByteMapCoversAllBytes := by
  intro b0
  rcases firstByte_cases b0 with ⟨x, rfl⟩ | ⟨x, rfl⟩ | ⟨x, rfl⟩ | ⟨x, hx, rfl⟩ | rfl | rfl
  · exact ⟨_, kindRow?_index x, by simp [toNat_tag_append]; omega⟩
  · exact ⟨_, kindRow?_diff x, by simp [toNat_tag_append]; omega⟩
  · exact ⟨_, kindRow?_luma x, by simp [toNat_tag_append]; omega⟩
  · exact ⟨_, kindRow?_run x hx, by simp [toNat_tag_append]; omega⟩
  · exact ⟨_, kindRow?_rgb, by decide⟩
  · exact ⟨_, kindRow?_rgba, by decide⟩

/-- Settles O45: six of the words are layouts with these fields, and the last is the pattern of END. -/
theorem sampleWordsDecode : Obligations.SampleWordsDecode :=
  ⟨decodeElement_of_layout (.index 9#6) (rest := []) (by decide),
    decodeElement_of_layout (.diff 3#2 2#2 1#2) (rest := []) (by decide),
    decodeElement_of_layout (.luma 52#6 13#4 3#4) (rest := []) (by decide),
    decodeElement_of_layout (.run 61#6 (by decide)) (rest := []) (by decide),
    decodeElement_of_layout (.rgb 10 20 30) (rest := []) (by decide),
    decodeElement_of_layout (.rgba 200 100 50 128) (rest := []) (by decide), decodeElement_endBytes []⟩

end Sys2Proof
end

section
/-!
PROOFS. The encoding family (30_encoding.md): the chunks a pass never emits (R48).
-/
namespace Sys2Proof.Machine

theorem ownChunk_index_or_miss (px : Pixel) (s : State) :
    (ownChunk px s).1 = .index (slot px) ∨ (ownChunk px s).1 = missChunk s.channels px s.prev := by
  rcases ownChunk_cases px s with ⟨-, e⟩ | ⟨-, e⟩ <;> rw [e]
  · exact .inl rfl
  · exact .inr rfl

/-- The chunks of a pixel: a RUN, or, for a pixel that is not `prev`, its INDEX or what steps 4 to 6 choose (R79). -/
theorem mem_classify {k : Chunk} {px : Pixel} {s : State} (hk : k ∈ (classify px s).1) :
    (∃ n, k = .run n) ∨ px ≠ s.prev ∧ (k = .index (slot px) ∨ k = missChunk s.channels px s.prev) := by
  rcases classify_cases px s with ⟨-, -, e⟩ | ⟨-, -, e⟩ | ⟨hne, -, e⟩ | ⟨hne, -, e⟩ <;> rw [e] at hk
  · exact nomatch hk
  · exact .inl ⟨_, List.mem_singleton.1 hk⟩
  · obtain rfl := List.mem_singleton.1 hk
    exact .inr ⟨hne, ownChunk_index_or_miss px s⟩
  · rcases List.mem_cons.1 hk with h | h
    · exact .inl ⟨_, h⟩
    · obtain rfl := List.mem_singleton.1 h
      exact .inr ⟨hne, ownChunk_index_or_miss px (setRun 0#6 s)⟩

/-- Equal samples are those with the wraparound difference 0 (R8). -/
theorem eq_of_wsub8_eq_zero {a b : Byte} (h : wsub8 a b = 0) : a = b := by
  have hsum := add_wsub8 a b
  rw [h] at hsum
  simpa using hsum.symm

/-- A pixel with no delta and the alpha of `prev` is `prev` (R71). -/
theorem eq_of_deltas_eq_zero {px prev : Pixel} (hr : (deltas px prev).dr = 0) (hg : (deltas px prev).dg = 0)
    (hb : (deltas px prev).db = 0) (ha : px.a = prev.a) : px = prev := by
  cases px; cases prev
  simp only [Pixel.mk.injEq]
  exact ⟨eq_of_wsub8_eq_zero hr, eq_of_wsub8_eq_zero hg, eq_of_wsub8_eq_zero hb, ha⟩

/-- A signed byte `d` is in [-2, 1] where the delta `g` and the wrapped difference `s8 (d - g)` add up to a number that
is: the sum is `d` modulo 256 (R73). -/
theorem small_of_add_s8_sub {d g : Int} (hd : -128 ≤ d ∧ d ≤ 127) (h : -2 ≤ g + s8 (d - g) ∧ g + s8 (d - g) ≤ 1) :
    -2 ≤ d ∧ d ≤ 1 := by
  obtain ⟨-, -, hmod⟩ := s8_spec (d - g)
  omega

/-- Deltas that LUMA would carry with all three in [-2, 1] are deltas DIFF applies to (R72, R73). -/
theorem diffEligible_of_luma_small {px prev : Pixel} {d : Deltas} (hd : d = deltas px prev)
    (hg : -2 ≤ d.dg ∧ d.dg ≤ 1) (hr : -2 ≤ d.dg + lumaRed d ∧ d.dg + lumaRed d ≤ 1)
    (hb : -2 ≤ d.dg + lumaBlue d ∧ d.dg + lumaBlue d ≤ 1) : diffEligible d = true := by
  subst hd
  simp only [diffEligible, Bool.and_eq_true, inRange_iff]
  exact ⟨⟨small_of_add_s8_sub (wsub8_range px.r prev.r) hr, hg⟩, small_of_add_s8_sub (wsub8_range px.b prev.b) hb⟩

/-- The raw chunk is RGB with 3 channels and RGBA otherwise (R74). -/
theorem rawChunk_cases (c : Byte) (px : Pixel) :
    (c = 3#8 ∧ rawChunk c px = .rgb px.r px.g px.b) ∨ (c ≠ 3#8 ∧ rawChunk c px = .rgba px.r px.g px.b px.a) := by
  by_cases h : c = 3#8
  · exact .inl ⟨h, if_pos h⟩
  · exact .inr ⟨h, if_neg h⟩

/-- Settles O35: RUN and INDEX are none of these. A DIFF 0, 0, 0 in a 3-channel pass, where every alpha is 255, would
stand for `prev` itself; a LUMA in the DIFF range for a pixel that DIFF, tried first, applies to; and the raw chunk
follows the channel count. -/
theorem chunksThatNeverOccur : Obligations.ChunksThatNeverOccur := by
  intro bytes px s hs hx k hk
  rcases mem_classify hk with ⟨n, rfl⟩ | ⟨hne, rfl | rfl⟩
  · simp
  · simp
  rcases missChunk_cases s.channels px s.prev with ⟨-, e⟩ | ⟨hd, -, e⟩ | ⟨-, -, e⟩ <;> rw [e]
  · refine ⟨fun h3 => ⟨by simp, fun hzero => hne ?_⟩, by simp, by simp⟩
    obtain ⟨hr, hg, hb⟩ := Chunk.diff.inj hzero
    rw [h3] at hx
    exact eq_of_deltas_eq_zero hr hg hb ((logicalPixel_three_alpha hx).trans (hs.prevAlpha h3).symm)
  · refine ⟨by simp, by simp, ?_⟩
    rintro dg drg dbg hluma ⟨hg, hr, hb⟩
    obtain ⟨rfl, rfl, rfl⟩ := Chunk.luma.inj hluma
    rw [diffEligible_of_luma_small rfl hg hr hb] at hd
    exact nomatch hd
  · rcases rawChunk_cases s.channels px with ⟨h3, er⟩ | ⟨h3, er⟩ <;> rw [er]
    · simp [h3]
    · simp [h3]

end Sys2Proof.Machine
end

section
/-!
PROOFS. The encoder_top family (40_encoder_top.md), its layer of facts: when each command is refused, that every pixel
of the right size completes in a pass, and that no command sees the port.
-/
namespace Sys2Proof.Machine

/-! ### Refusals of the commands (R55, R56) -/

theorem acceptPixel_outside_pass {s : State} (hp : s.phase ≠ .body) (bytes : List Byte) :
    acceptPixel bytes s = .refused .pixelOutsidePass := if_neg hp

theorem acceptPixel_wrong_size {bytes : List Byte} {s : State} (hp : s.phase = .body)
    (hl : bytes.length ≠ s.channels.toNat) : acceptPixel bytes s = .refused .pixelSize :=
  (if_pos hp).trans (if_neg hl)

theorem closePass_outside_pass {s : State} (hp : s.phase ≠ .body) : closePass s = .refused .finishOutsidePass :=
  if_neg hp

/-! ### Completion of the commands -/

theorem emitChunk_completes_iff {k : Chunk} {s : State} : (∃ t, emitChunk k s = .next t) ↔ k.inRange = true := by
  rcases emitChunk_cases k s with ⟨hk, e⟩ | ⟨hk, e⟩ <;> simp [e, hk]

theorem openPass_completes_iff {w h : Word32} {c : Byte} {s : State} :
    (∃ t, openPass w h c s = .next t) ↔ s.phase ≠ .body ∧ legalChannels c = true := by
  simp [openPass_eq_next]

/-- In a pass a PIXEL of `CHANNELS` bytes has a logical pixel and is accepted as it. -/
theorem ScanInv.acceptPixel_next {bytes : List Byte} {s : State} (hs : ScanInv s) (hp : s.phase = .body)
    (hl : bytes.length = s.channels.toNat) :
    ∃ px, logicalPixel s.channels bytes = some px ∧ acceptPixel bytes s = .next (Machine.accepted px s) := by
  obtain ⟨px, hx⟩ := logicalPixel_isSome (hs.channels (by simp [hp])) hl
  exact ⟨px, hx, Machine.acceptPixel_next hp hl hx hs.runLegal⟩

theorem ScanInv.acceptPixel_completes_iff {bytes : List Byte} {s : State} (hs : ScanInv s) :
    (∃ t, acceptPixel bytes s = .next t) ↔ s.phase = .body ∧ bytes.length = s.channels.toNat := by
  constructor
  · rintro ⟨t, ht⟩
    obtain ⟨hp, hl, -⟩ := acceptPixel_eq_next.1 ht
    exact ⟨hp, hl⟩
  · rintro ⟨hp, hl⟩
    obtain ⟨px, -, e⟩ := hs.acceptPixel_next hp hl
    exact ⟨_, e⟩

theorem ScanInv.closePass_completes_iff {s : State} (hs : ScanInv s) :
    (∃ t, closePass s = .next t) ↔ s.phase = .body :=
  ⟨fun ⟨_, ht⟩ => (closePass_eq_next.1 ht).1, fun hp => ⟨_, closePass_next hp hs.runLegal⟩⟩

/-- In a pass every list of stored pixels of its size is accepted, and FINISH then completes. -/
theorem ScanInv.acceptPixels_closePass_completes {ps : List (List Byte)} {s : State} (hs : ScanInv s)
    (hp : s.phase = .body) (hl : ∀ p ∈ ps, p.length = s.channels.toNat) :
    ∃ t, andThen (acceptPixels ps s) closePass = .next t := by
  induction ps generalizing s with
  | nil => exact ⟨_, closePass_next hp hs.runLegal⟩
  | cons p ps ih =>
    obtain ⟨hlp, hlps⟩ := List.forall_mem_cons.1 hl
    obtain ⟨px, hx, e⟩ := hs.acceptPixel_next hp hlp
    obtain ⟨t, ht⟩ := ih (hs.accepted hp hx) ((accepted_phase px s).trans hp) (by simpa using hlps)
    exact ⟨t, by simpa [acceptPixels, e] using ht⟩

/-- All that ENCODE can do, beside START: both are refused for the same reason, or both complete (R54). -/
theorem execEncode_cases (w h : Word32) (c : Byte) (input : List Byte) (s : State) :
    (∃ r, openPass w h c s = .refused r ∧ execEncode w h c input s = .refused r) ∨
    (∃ t, openPass w h c s = .next (opened w h c s) ∧ execEncode w h c input s = .next t) := by
  unfold execEncode
  rcases openPass_cases w h c s with ⟨-, e⟩ | ⟨-, -, e⟩ | ⟨-, hc, e⟩ <;> rw [e]
  · exact .inl ⟨_, rfl, rfl⟩
  · exact .inl ⟨_, rfl, rfl⟩
  · obtain ⟨t, ht⟩ := (scanInv_opened s hc).acceptPixels_closePass_completes rfl
      fun p hp => length_of_mem_pixelGroups (c := c.toNat) (input := input) hp
    exact .inr ⟨t, rfl, ht⟩

theorem execEncode_completes_iff_openPass (w h : Word32) (c : Byte) (input : List Byte) (s : State) :
    (∃ t, execEncode w h c input s = .next t) ↔ ∃ t, openPass w h c s = .next t := by
  rcases execEncode_cases w h c input s with ⟨r, eo, ee⟩ | ⟨t, eo, ee⟩ <;> simp [eo, ee]

/-! ### The port is not seen by a command -/

/-- `s` with other transactions waiting on its port (log 1). -/
def setPort (q : List Transaction) (s : State) : State := { s with port := q }

@[simp] theorem setPort_self (s : State) : setPort s.port s = s := rfl
@[simp] theorem setPort_run (q : List Transaction) (s : State) : (setPort q s).run = s.run := rfl
@[simp] theorem setPort_prev (q : List Transaction) (s : State) : (setPort q s).prev = s.prev := rfl
@[simp] theorem setRun_setPort (n : BitVec 6) (q : List Transaction) (s : State) :
    setRun n (setPort q s) = setPort q (setRun n s) := rfl
@[simp] theorem runContinues_setPort (px : Pixel) (q : List Transaction) (s : State) :
    runContinues px (setPort q s) = runContinues px s := rfl

theorem openPass_setPort (w h : Word32) (c : Byte) (q : List Transaction) (s : State) :
    openPass w h c (setPort q s) = andThen (openPass w h c s) fun t => .next (setPort q t) := by
  rcases openPass_cases w h c s with ⟨hp, e⟩ | ⟨hp, hc, e⟩ | ⟨hp, hc, e⟩ <;> rw [e]
  · exact if_pos hp
  · exact (if_neg hp).trans (if_neg (Bool.eq_false_iff.1 hc))
  · exact openPass_eq_next.2 ⟨hp, hc, rfl⟩

@[simp] theorem ownChunk_setPort (px : Pixel) (q : List Transaction) (s : State) :
    ownChunk px (setPort q s) = ((ownChunk px s).1, setPort q (ownChunk px s).2) := by
  rcases ownChunk_cases px s with ⟨hit, e⟩ | ⟨miss, e⟩ <;> rw [e]
  · exact if_pos hit
  · exact if_neg (Bool.eq_false_iff.1 miss)

theorem classify_setPort (px : Pixel) (q : List Transaction) (s : State) :
    classify px (setPort q s) = ((classify px s).1, setPort q (classify px s).2) := by
  simp only [classify, runContinues_setPort, setPort_run, setPort_prev, setRun_setPort, ownChunk_setPort]
  split_ifs <;> rfl

theorem accepted_setPort (px : Pixel) (q : List Transaction) (s : State) :
    accepted px (setPort q s) = setPort q (accepted px s) := by
  rw [accepted, pixelBytes, classify_setPort]; rfl

/-! ### A step, by what stands on the port (R57) -/

theorem step_of_port_nil {s : State} (h : s.port = []) : step s = .next s := by
  simp [step, h]

theorem step_of_command {s : State} {i : Instr} {rest : List Transaction} (h : s.port = .command i :: rest) :
    step s = exec i (setPort rest s) := by
  simp [step, h, requestOf, serve, setPort]

theorem step_of_element {s : State} {bytes tail : List Byte} {i : Instr} {rest : List Transaction}
    (h : s.port = .element bytes :: rest)
    (hd : decodeAt s.config.magic (s.out.size == 0) bytes = .ok (i, tail)) :
    step s = exec i (setPort rest s) := by
  simp [step, h, requestOf, serve, hd, setPort]

/-- Past the start of OUT no HEADER is looked for (R32, log 3). -/
theorem decodeAt_false (magic : Magic) (bytes : List Byte) :
    decodeAt magic false bytes = decodeElement bytes := rfl

theorem decodeAt_of_notHeader {magic : Magic} {bytes : List Byte} {e : DecodeError}
    (h : decodeHeader magic bytes = .error e) (atStart : Bool) :
    decodeAt magic atStart bytes = decodeElement bytes := by
  simp [decodeAt, h]

/-- The transactions that PIXEL and FINISH commands make on the port (R52, R53). -/
def pixelsFinish (ps : List (List Byte)) : List Transaction :=
  (ps.map fun p => .command (.pixel p)) ++ [.command .finish]

/-- A command at the head of the port is the next step. -/
theorem runSteps_command (n : Nat) (i : Instr) (rest : List Transaction) (s : State) :
    runSteps (n + 1) (setPort (.command i :: rest) s) = andThen (exec i (setPort rest s)) (runSteps n) :=
  congrArg (andThen · (runSteps n)) (step_of_command rfl)

/-- In a pass, PIXELs of its size and a FINISH on the port end as `acceptPixels` and `closePass` do without it. -/
theorem ScanInv.runSteps_pixelsFinish {ps : List (List Byte)} {s : State} (hs : ScanInv s) (hp : s.phase = .body)
    (hl : ∀ p ∈ ps, p.length = s.channels.toNat) (hport : s.port = []) :
    runSteps (ps.length + 1) (setPort (pixelsFinish ps) s) = andThen (acceptPixels ps s) closePass := by
  induction ps generalizing s with
  | nil =>
    have hfinish : closePass s = .next (Machine.closed s) := closePass_next hp hs.runLegal
    calc runSteps 1 (setPort (pixelsFinish []) s)
      _ = andThen (closePass (setPort s.port s)) .next := hport ▸ runSteps_command 0 .finish [] s
      _ = closePass s := by rw [setPort_self, hfinish, andThen_next]
  | cons p ps ih =>
    obtain ⟨hlp, hlps⟩ := List.forall_mem_cons.1 hl
    obtain ⟨px, hx, e⟩ := hs.acceptPixel_next hp hlp
    have hpixel : acceptPixel p (setPort (pixelsFinish ps) s) =
        .next (setPort (pixelsFinish ps) (Machine.accepted px s)) :=
      accepted_setPort px _ s ▸ Machine.acceptPixel_next hp hlp hx hs.runLegal
    calc runSteps (ps.length + 2) (setPort (pixelsFinish (p :: ps)) s)
      _ = andThen (acceptPixel p (setPort (pixelsFinish ps) s)) (runSteps (ps.length + 1)) := runSteps_command ..
      _ = runSteps (ps.length + 1) (setPort (pixelsFinish ps) (Machine.accepted px s)) := by rw [hpixel, andThen_next]
      _ = andThen (acceptPixels ps (Machine.accepted px s)) closePass :=
        ih (hs.accepted hp hx) ((accepted_phase px s).trans hp) (by simpa using hlps)
          ((accepted_port px s).trans hport)
      _ = andThen (acceptPixels (p :: ps) s) closePass := by rw [acceptPixels, e, andThen_next]

end Sys2Proof.Machine
end

section
/-!
PROOFS. The encoder_top family (40_encoder_top.md): the obligations.
-/
namespace Sys2Proof.Machine

/-- An open run's byte, by its formula (R80). -/
theorem flushBytes_eq (r : BitVec 6) :
    flushBytes r = if r = 0#6 then [] else [BitVec.ofNat 8 (192 + (r.toNat - 1))] := by
  revert r; decide

/-- Settles O7: `openPass_cases` names the three outcomes, and the state left is `opened`, whose OUT is an append to the
empty memory. -/
theorem startOpensFreshPass : Obligations.StartOpensFreshPass := by
  intro w h c s
  simp only [← legalChannels_iff]
  rcases openPass_cases w h c s with ⟨hp, e⟩ | ⟨hp, hc, e⟩ | ⟨hp, hc, e⟩
  · exact ⟨fun hnp => absurd hp hnp, fun _ => e, fun hnp => absurd hp hnp⟩
  · exact ⟨fun _ hc' => absurd hc' (Bool.eq_false_iff.1 hc), fun hp' => absurd hp' hp, fun _ _ => e⟩
  · exact ⟨fun _ _ => ⟨opened w h c s, e, rfl, fun _ => rfl, rfl, Memory.outGrows_append Memory.wf_empty _⟩,
      fun hp' => absurd hp' hp, fun _ hc' => absurd hc hc'⟩

/-- Settles O9: from a legal `run` the pass closes as `closed`, which appends the flush and the terminator. -/
theorem finishFlushesAndTerminates : Obligations.FinishFlushesAndTerminates := by
  intro s
  refine ⟨fun hp hr hwf => ⟨closed s, closePass_next hp hr, ?_, ?_⟩, fun hp => closePass_outside_pass hp⟩
  · rw [closed_out]
    exact closed_eq s
  · rw [← flushBytes_eq, closed_out]
    exact Memory.outGrows_append hwf _

/-- Settles O16: the phase is tested before the size. -/
theorem pixelRefusalsPhaseBeforeSize : Obligations.PixelRefusalsPhaseBeforeSize :=
  fun bytes _ => ⟨fun hp => acceptPixel_outside_pass hp bytes, fun hp hl => acceptPixel_wrong_size hp hl⟩

/-- Settles O17: a chunk row completes where its descriptor is in range, a framing row always, and a host command where
its phase and operands allow; ENCODE does so exactly where START does. -/
theorem execCompletesExactlyWhenAdmitted : Obligations.ExecCompletesExactlyWhenAdmitted := by
  intro i s hs
  cases i with
  | index slot => exact emitChunk_completes_iff
  | diff dr dg db => exact emitChunk_completes_iff
  | luma dg drg dbg => exact emitChunk_completes_iff
  | run n => exact emitChunk_completes_iff
  | rgb r g b => exact emitChunk_completes_iff (k := .rgb r g b)
  | rgba r g b a => exact emitChunk_completes_iff (k := .rgba r g b a)
  | header w h c => exact ⟨fun _ => rfl, fun _ => ⟨_, rfl⟩⟩
  | endMark => exact ⟨fun _ => rfl, fun _ => ⟨_, rfl⟩⟩
  | start w h c => exact openPass_completes_iff.trans (by simp [admits])
  | pixel bytes => exact hs.acceptPixel_completes_iff.trans (by simp [admits])
  | finish => exact hs.closePass_completes_iff.trans (by simp [admits])
  | encode w h c input =>
    exact (execEncode_completes_iff_openPass w h c input s).trans (openPass_completes_iff.trans (by simp [admits]))

/-- Settles O18: the first step is START; where it is refused ENCODE is, and where it completes the PIXELs and FINISH
left on the port run in the state it leaves. -/
theorem encodeIsStartPixelsFinish : Obligations.EncodeIsStartPixelsFinish := by
  intro w h c input s
  have hlen : (pixelGroups c.toNat input).length = input.length / c.toNat := by simp [pixelGroups]
  have hport : [.command (.start w h c)] ++ ((List.range (input.length / c.toNat)).map fun i =>
        .command (.pixel ((input.drop (i * c.toNat)).take c.toNat))) ++ [.command .finish] =
      Transaction.command (.start w h c) :: pixelsFinish (pixelGroups c.toNat input) := by
    simp [pixelsFinish, pixelGroups, memRead]
  rw [hport, ← hlen]
  generalize hps : pixelGroups c.toNat input = ps
  calc runSteps (ps.length + 2) (setPort (.command (.start w h c) :: pixelsFinish ps) s)
    _ = andThen (openPass w h c (setPort (pixelsFinish ps) s)) (runSteps (ps.length + 1)) := runSteps_command ..
    _ = execEncode w h c input (setPort [] s) := ?_
  rw [execEncode, openPass_setPort, openPass_setPort]
  rcases openPass_cases w h c s with ⟨-, e⟩ | ⟨-, -, e⟩ | ⟨-, hc, e⟩ <;> rw [e]
  · rfl
  · rfl
  · have hl : ∀ p ∈ ps, p.length = c.toNat := hps ▸ fun p hp => length_of_mem_pixelGroups hp
    rw [hps]
    exact ((scanInv_opened s hc).withPort []).runSteps_pixelsFinish rfl hl rfl

/-- Settles O22: `execEncode_cases` gives ENCODE and START the same outcome, up to the state they leave. -/
theorem encodeRefusedExactlyAsStart : Obligations.EncodeRefusedExactlyAsStart := by
  intro w h c input s
  refine ⟨fun r => ?_, execEncode_completes_iff_openPass w h c input s⟩
  simp only [exec, execStart]
  rcases execEncode_cases w h c input s with ⟨r', eo, ee⟩ | ⟨t, eo, ee⟩ <;> simp [eo, ee]

/-- Settles O30: a command is run as it stands, and an element decodes as a HEADER only where OUT is empty and its bytes
are one. -/
theorem stepRunsTheFetchedInstruction : Obligations.StepRunsTheFetchedInstruction := by
  intro s rest
  refine ⟨fun i h => step_of_command h, fun bytes i tail h hsize hd => step_of_element h (tail := tail) ?_,
    fun bytes i tail h hsize hd => step_of_element h (tail := tail) ?_,
    fun bytes i tail e h _ he hd => step_of_element h ((decodeAt_of_notHeader he _).trans hd), step_of_port_nil⟩
  · rw [beq_false_of_ne hsize, decodeAt_false]
    exact hd
  · rw [hsize]
    exact decodeAt_of_header hd

end Sys2Proof.Machine
end

section
/-!
PROOFS. The colour cache family (41_color_cache_lookup.md): the hash and the sentinel of a fresh cache.
-/
namespace Sys2Proof.Machine

/-! ### The hash and the slot -/

/-- The bound is the hash of opaque white, 255 * (3 + 5 + 7 + 11) (R60). -/
theorem pixelHash_le (px : Pixel) : pixelHash px ≤ 6630 := by
  have hr := px.r.isLt
  have hg := px.g.isLt
  have hb := px.b.isLt
  have ha := px.a.isLt
  unfold pixelHash
  omega

/-- Reducing the hash mod 64 is keeping its low six bits (R61). -/
theorem ofNat_six_slot (px : Pixel) : BitVec.ofNat 6 (slot px) = BitVec.ofNat 6 (pixelHash px) :=
  BitVec.eq_of_toNat_eq (Nat.mod_mod _ _)

/-- Settles O38: keeping the low six bits commutes with sum and product, so it can be done on each component first. -/
theorem slotNeedsOnlySixBits : Obligations.SlotNeedsOnlySixBits := by
  refine fun px => ⟨pixelHash_le px, (ofNat_six_slot px).trans ?_⟩
  simp only [pixelHash, BitVec.ofNat_add, BitVec.ofNat_mul, BitVec.ofNat_toNat, BitVec.ofNat_eq_ofNat]

/-! ### A slot that was never written -/

@[simp] theorem readValid_opened (k : Slot) (w h : Word32) (c : Byte) (s : State) :
    readValid k (opened w h c s) = false :=
  readValid_initPass k s

/-- A lookup that hits has found the pixel itself (R62), so one that hits on the sentinel looked up the sentinel. -/
theorem eq_transparentBlack_of_hit {px : Pixel} {s : State} (hit : (cacheLookup px s).2 = true)
    (hk : readSlot (slot px) s = Pixel.transparentBlack) : px = Pixel.transparentBlack :=
  (cacheLookup_hit_iff.1 hit).1.symm.trans hk

/-- In the cache START leaves, only the sentinel hits, and only where the valid bits are not looked at (R65). -/
theorem cacheLookup_opened_hit_iff (px : Pixel) (w h : Word32) (c : Byte) (s : State) :
    (cacheLookup px (opened w h c s)).2 = true ↔
      s.config.cacheValidTracking = false ∧ px = Pixel.transparentBlack := by
  rw [cacheLookup_hit_iff, readSlot_opened, readValid_opened, opened_config, eq_comm (b := px), and_comm]
  simp

/-- Settles O40: a hit has found the pixel itself, START leaves every slot transparent black with its valid bit clear, and
alpha is 255 in a 3-channel pass. -/
theorem onlyTransparentBlackHitsFreshSlot : Obligations.OnlyTransparentBlackHitsFreshSlot := by
  refine ⟨fun px s hit hk => ?_, fun w h c px s t ht => ?_, fun bytes px hpx hz => ?_⟩
  · have hz : px = Pixel.transparentBlack := eq_transparentBlack_of_hit hit hk
    exact ⟨hz, hz ▸ rfl⟩
  · obtain ⟨-, -, rfl⟩ := openPass_eq_next.1 ht
    exact cacheLookup_opened_hit_iff px w h c s
  · have halpha := logicalPixel_three_alpha hpx
    simp [hz] at halpha

end Sys2Proof.Machine
end

section
/-!
PROOFS. The chunk classifier family (42_chunk_classifier.md), its layer of facts: the packer writes the layouts, the
pixels that chunks stand for, and what a pixel that is not `prev` does.
-/
namespace Sys2Proof.Machine

/-! ### The packer writes the layouts (R80 to R85) -/

theorem packFields_of_layout {k : Chunk} {front : List Byte} (h : ChunkLayout k.instr front) :
    packFields k = front := by
  cases k with
  | run n =>
    cases h with
    | run x hx =>
      have hbyte : 0xC0#8 ||| byteOf ((x.toNat + 1 : Nat) - 1) = 0b11#2 ++ x := by revert x; decide
      simp only [packFields, hbyte]
  | index n =>
    cases h with
    | index x =>
      have hbyte : byteOf x.toNat = 0b00#2 ++ x := by revert x; decide
      simp only [packFields, hbyte]
  | diff dr dg db =>
    cases h with
    | diff r g b =>
      have hbyte : 0x40#8 ||| byteOf r.toNat <<< 4 ||| byteOf g.toNat <<< 2 ||| byteOf b.toNat =
          0b01#2 ++ r ++ g ++ b := by revert r g b; decide
      simp only [packFields, Int.sub_add_cancel, hbyte]
  | luma dg drg dbg =>
    cases h with
    | luma g r b =>
      have hgreen : 0x80#8 ||| byteOf g.toNat = 0b10#2 ++ g := by revert g; decide
      have hrest : byteOf r.toNat <<< 4 ||| byteOf b.toNat = r ++ b := by revert r b; decide
      simp only [packFields, Int.sub_add_cancel, hgreen, hrest]
  | rgb r g b => cases h; rfl
  | rgba r g b a => cases h; rfl

@[simp] theorem instr_isChunk (k : Chunk) : k.instr.isChunk = true := by cases k <;> rfl

/-- A descriptor in range is packed as its layout's word. -/
theorem chunkLayout_packFields {k : Chunk} (hk : k.inRange = true) : ChunkLayout k.instr (packFields k) := by
  obtain ⟨front, hl⟩ := exists_layout hk (instr_isChunk k)
  rwa [packFields_of_layout hl]

/-- The packer and the encoder write the same bytes for a descriptor in range. -/
theorem encode_instr {k : Chunk} (hk : k.inRange = true) (magic : Magic) :
    encode magic k.instr = some (packFields k) :=
  encode_of_layout (chunkLayout_packFields hk) magic

theorem packFields_ne_nil (k : Chunk) : packFields k ≠ [] := by cases k <;> simp [packFields]

/-! ### The pixels that chunks stand for (R79) -/

@[simp] theorem chunkPixels_nil : chunkPixels [] = 0 := rfl

@[simp] theorem chunkPixels_append (ks ls : List Chunk) :
    chunkPixels (ks ++ ls) = chunkPixels ks + chunkPixels ls := by
  simp [chunkPixels]

theorem chunkPixels_singleton (k : Chunk) : chunkPixels [k] = k.pixels := by simp [chunkPixels]

/-- Whichever chunk a pixel gets of its own, it stands for that one pixel. -/
theorem chunkPixels_ownChunk (px : Pixel) (s : State) : chunkPixels [(ownChunk px s).1] = 1 := by
  rw [chunkPixels_singleton]
  rcases ownChunk_cases px s with ⟨-, e⟩ | ⟨-, e⟩ <;> rw [e]
  · rfl
  · rcases missChunk_cases s.channels px s.prev with ⟨-, m⟩ | ⟨-, -, m⟩ | ⟨-, -, m⟩ <;> rw [m]
    · rfl
    · rfl
    · rcases rawChunk_cases s.channels px with ⟨-, r⟩ | ⟨-, r⟩ <;> rw [r] <;> rfl

/-- The flush stands for the pixels of the open run (R78). -/
theorem chunkPixels_flushRun (s : State) : chunkPixels (flushRun s).1 = s.run.toNat := by
  rcases flushRun_cases s with ⟨h0, e⟩ | ⟨-, e⟩ <;> rw [e]
  · simp [h0]
  · exact chunkPixels_singleton _

/-! ### A pixel that is not `prev` -/

/-- A pixel that is not `prev` flushes the open run, if there is one, and emits its own chunk (R69 to R74). -/
theorem classify_of_ne {px : Pixel} {s : State} (hne : px ≠ s.prev) :
    classify px s =
      ((flushRun s).1 ++ [(ownChunk px (setRun 0#6 s)).1], (ownChunk px (setRun 0#6 s)).2) := by
  rcases classify_cases px s with ⟨hp, -, -⟩ | ⟨hp, -, -⟩ | ⟨-, h0, e⟩ | ⟨-, h0, e⟩
  · exact absurd hp hne
  · exact absurd hp hne
  · have hs : setRun 0#6 s = s := h0 ▸ setRun_self s
    simp [e, flushRun, h0, hs]
  · simp [e, flushRun, h0]

theorem pixelBytes_of_ne {px : Pixel} {s : State} (hne : px ≠ s.prev) :
    pixelBytes px s = flushBytes s.run ++ packFields (ownChunk px (setRun 0#6 s)).1 := by
  rw [pixelBytes, classify_of_ne hne, List.flatMap_append, flushRun_bytes, List.flatMap_singleton]

/-- The pixels of the chunks emitted, with those still in the run, are those that were in the run and this one (R79). -/
theorem chunkPixels_classify (px : Pixel) (s : State) :
    chunkPixels (classify px s).1 + (classify px s).2.run.toNat = s.run.toNat + 1 := by
  have other (hne : px ≠ s.prev) :
      chunkPixels (classify px s).1 + (classify px s).2.run.toNat = s.run.toNat + 1 := by
    simp [classify_of_ne hne, chunkPixels_flushRun, chunkPixels_ownChunk]
  rcases classify_cases px s with ⟨-, hlt, e⟩ | ⟨-, -, e⟩ | ⟨hne, -⟩ | ⟨hne, -⟩
  · simp [e, BitVec.toNat_add]; omega
  · simp [e, chunkPixels_singleton, Chunk.pixels]
  · exact other hne
  · exact other hne

end Sys2Proof.Machine
end

section
/-!
PROOFS. The chunk classifier family (42_chunk_classifier.md): the steps of the priority chain, one PIXEL at a time.
-/
namespace Sys2Proof.Machine

/-! ### The state a PIXEL leaves, step by step -/

section
variable {px : Pixel} {s : State}

/-- Step 1: the pixel goes into the run (R68). -/
theorem accepted_of_continues (hpx : px = s.prev) (hr : s.run.toNat < 62) :
    accepted px s = { s with run := s.run + 1#6, npix := s.npix + 1 } := by
  have hc : classify px s = ([], setRun (s.run + 1#6) s) := if_pos (by simp [runContinues, hpx, hr])
  rw [accepted, pixelBytes, hc]
  rfl

/-- Step 2 at the limit: the full run is emitted and the pixel starts the next one (R69). -/
theorem accepted_of_limit (hpx : px = s.prev) (hr : s.run.toNat = 62) :
    accepted px s = { s with run := 1#6, npix := s.npix + 1, out := s.out.append [0xFD] } := by
  rcases classify_cases px s with ⟨-, hlt, -⟩ | ⟨-, -, e⟩ | ⟨hne, -⟩ | ⟨hne, -⟩
  · omega
  · rw [accepted, pixelBytes, e, hr]
    rfl
  · exact absurd hpx hne
  · exact absurd hpx hne

/-- Step 3: the pixel's slot holds it (R70). -/
theorem accepted_of_hit (hne : px ≠ s.prev) (hit : (cacheLookup px s).2 = true) :
    accepted px s =
      { s with
        prev := px, run := 0#6, npix := s.npix + 1,
        out := s.out.append (flushBytes s.run ++ packFields (.index (slot px))) } := by
  have hown : ownChunk px (setRun 0#6 s) = (.index (slot px), setPrev px (setRun 0#6 s)) := if_pos hit
  rw [accepted, pixelBytes_of_ne hne, classify_of_ne hne, hown]
  rfl

/-- Steps 4 to 6: a pixel the cache missed (R63, R72 to R74). -/
theorem accepted_of_miss (hne : px ≠ s.prev) (hmiss : (cacheLookup px s).2 = false) :
    accepted px s =
      { s with
        prev := px, run := 0#6, cache := s.cache.set (slot px) px,
        valid := if s.config.cacheValidTracking then s.valid.set (slot px) true else s.valid,
        npix := s.npix + 1,
        out := s.out.append (flushBytes s.run ++ packFields (missChunk s.channels px s.prev)) } := by
  have hown : ownChunk px (setRun 0#6 s) = (missChunk s.channels px s.prev, afterMiss px (setRun 0#6 s)) :=
    if_neg (Bool.eq_false_iff.1 hmiss)
  rw [accepted, pixelBytes_of_ne hne, classify_of_ne hne, hown]
  rfl

/-- An open run changes nothing about the state that a pixel other than `prev` leaves, but OUT (R69). -/
theorem accepted_setRun_zero (hne : px ≠ s.prev) :
    accepted px (setRun 0#6 s) = { accepted px s with out := (accepted px (setRun 0#6 s)).out } := by
  have hne' : px ≠ (setRun 0#6 s).prev := hne
  simp only [accepted, classify_of_ne hne, classify_of_ne hne']
  rfl

theorem pixelBytes_setRun_zero (hne : px ≠ s.prev) :
    pixelBytes px (setRun 0#6 s) = packFields (ownChunk px (setRun 0#6 s)).1 :=
  pixelBytes_of_ne (s := setRun 0#6 s) hne

theorem outGrows_accepted (hwf : s.out.wf) : OutGrows (pixelBytes px s) s.out (accepted px s).out := by
  rw [accepted_out]
  exact Memory.outGrows_append hwf _

end

/-! ### The chunk of a pixel the cache missed -/

theorem diffEligible_iff {d : Deltas} :
    diffEligible d = true ↔ (-2 ≤ d.dr ∧ d.dr ≤ 1) ∧ (-2 ≤ d.dg ∧ d.dg ≤ 1) ∧ (-2 ≤ d.db ∧ d.db ≤ 1) := by
  simp only [diffEligible, Bool.and_eq_true, inRange_iff, and_assoc]

theorem lumaEligible_iff {d : Deltas} :
    lumaEligible d = true ↔
      (-32 ≤ d.dg ∧ d.dg ≤ 31) ∧ (-8 ≤ lumaRed d ∧ lumaRed d ≤ 7) ∧ (-8 ≤ lumaBlue d ∧ lumaBlue d ≤ 7) := by
  simp only [lumaEligible, Bool.and_eq_true, inRange_iff, and_assoc]

section
variable {c : Byte} {px prev : Pixel} {d : Deltas} (hd : deltas px prev = d)
include hd

/-- The packed bytes of a DIFF are its layout (R39, R72). -/
theorem packFields_missChunk_diff (hdiff : diffEligible d = true) :
    packFields (missChunk c px prev) =
      [0b01#2 ++ biasedBits 2 2 d.dr ++ biasedBits 2 2 d.dg ++ biasedBits 2 2 d.db] := by
  subst hd
  have henc := encode_instr (missChunk_inRange c px prev) Magic.default
  rw [show missChunk c px prev = .diff _ _ _ from if_pos hdiff] at henc ⊢
  exact (Option.some.inj henc).symm

/-- The packed bytes of a LUMA are its layout (R40, R73). -/
theorem packFields_missChunk_luma (hdiff : ¬ diffEligible d = true) (hluma : lumaEligible d = true) :
    packFields (missChunk c px prev) =
      [0b10#2 ++ biasedBits 6 32 d.dg, biasedBits 4 8 (lumaRed d) ++ biasedBits 4 8 (lumaBlue d)] := by
  subst hd
  have henc := encode_instr (missChunk_inRange c px prev) Magic.default
  rw [show missChunk c px prev = .luma _ _ _ from (if_neg hdiff).trans (if_pos hluma)] at henc ⊢
  exact (Option.some.inj henc).symm

theorem packFields_missChunk_raw (hdiff : ¬ diffEligible d = true) (hluma : ¬ lumaEligible d = true) :
    packFields (missChunk c px prev) =
      if c = 3#8 then [0xFE, px.r, px.g, px.b] else [0xFF, px.r, px.g, px.b, px.a] := by
  subst hd
  rw [show missChunk c px prev = rawChunk c px from (if_neg hdiff).trans (if_neg hluma)]
  rcases rawChunk_cases c px with ⟨h3, e⟩ | ⟨h3, e⟩ <;> rw [e]
  · exact (if_pos h3).symm
  · exact (if_neg h3).symm

end

/-- A PIXEL that differs from `prev` and misses the cache emits the flush and its own chunk; `prev` and its slot take
the pixel (R63, R71 to R75). -/
theorem exec_pixel_of_miss {bytes : List Byte} {px : Pixel} {s : State} (hp : s.phase = .body)
    (hl : bytes.length = s.channels.toNat) (hx : logicalPixel s.channels bytes = some px) (hwf : s.out.wf)
    (hr : s.run.toNat ≤ 62) (hne : px ≠ s.prev) (hmiss : (cacheLookup px s).2 = false) :
    ∃ t, exec (.pixel bytes) s = .next t ∧
      t = { s with
            prev := px, run := 0#6, cache := s.cache.set (slot px) px,
            valid := if s.config.cacheValidTracking then s.valid.set (slot px) true else s.valid,
            npix := s.npix + 1, out := t.out } ∧
      OutGrows (flushBytes s.run ++ packFields (missChunk s.channels px s.prev)) s.out t.out := by
  refine ⟨_, acceptPixel_next hp hl hx hr, ?_, ?_⟩ <;> rw [accepted_of_miss hne hmiss]
  exact Memory.outGrows_append hwf _

/-! ### The obligations -/

/-- Settles O10: step 1 emits nothing, and six bits hold the counter below 62 plus one. -/
theorem pixelEqualToPrevContinuesRun : Obligations.PixelEqualToPrevContinuesRun := by
  intro bytes px s hp hl hx hpx hr
  refine ⟨_, acceptPixel_next hp hl hx (by omega), accepted_of_continues hpx hr, ?_⟩
  rw [accepted_of_continues hpx hr]
  simp [BitVec.toNat_add]; omega

/-- Settles O11: at the limit step 2 ends the pixel; otherwise its own chunk follows the flush, and is the one it has
with no run open, where the flush is empty. -/
theorem openRunIsFlushedFirst : Obligations.OpenRunIsFlushedFirst := by
  intro bytes px s hp hl hx hwf h0 hr
  have hexec : exec (.pixel bytes) s = .next (accepted px s) := acceptPixel_next hp hl hx hr
  refine ⟨fun hpx hlim => ⟨_, hexec, ?_⟩, fun hne => ⟨_, packFields (ownChunk px (setRun 0#6 s)).1, hexec, ?_,
    packFields_ne_nil _, ?_, accepted px (setRun 0#6 s), ?_, accepted_setRun_zero hne, ?_⟩⟩
  · rw [accepted_of_limit hpx hlim]
    exact ⟨rfl, Memory.outGrows_append hwf _⟩
  · rw [accepted_run, classify_of_ne hne, ownChunk_run, setRun_run]
  · have hgrows := outGrows_accepted (px := px) hwf
    rwa [pixelBytes_of_ne hne, flushBytes_eq, if_neg h0] at hgrows
  · exact acceptPixel_next hp hl hx (Nat.zero_le 62)
  · have hgrows := outGrows_accepted (px := px) (s := setRun 0#6 s) hwf
    rwa [pixelBytes_setRun_zero hne] at hgrows

/-- Settles O12: the lookup hits, so step 3 emits the slot's number as a byte. -/
theorem cachedPixelEmitsIndex : Obligations.CachedPixelEmitsIndex := by
  intro bytes px s hp hl hx hwf hr hne hread hvalid
  have hit : (cacheLookup px s).2 = true := cacheLookup_hit_iff.2 ⟨hread, hvalid⟩
  have hbyte : packFields (.index (slot px)) = [BitVec.ofNat 8 (slot px)] := by simp [packFields, byteOf]
  refine ⟨_, acceptPixel_next hp hl hx hr, ?_, ?_⟩ <;> rw [accepted_of_hit hne hit]
  exact hbyte ▸ Memory.outGrows_append hwf _

/-- Settles O13: with the cache missed, step 4 applies to the deltas and its chunk is packed as the layout of DIFF. -/
theorem smallDeltasEmitDiff : Obligations.SmallDeltasEmitDiff := by
  intro bytes px s dr dg db hp hl hx hwf hr hne hmiss hdr hdg hdb hr2 hg2 hb2
  have hd : deltas px s.prev = ⟨dr, dg, db⟩ := by rw [hdr, hdg, hdb]; rfl
  have hbytes := packFields_missChunk_diff (c := s.channels) hd (diffEligible_iff.2 ⟨hr2, hg2, hb2⟩)
  exact hbytes ▸ exec_pixel_of_miss hp hl hx hwf hr hne hmiss

/-- Settles O14: step 4 does not apply, step 5 does, and its chunk is packed as the layout of LUMA. -/
theorem lumaDeltasEmitLuma : Obligations.LumaDeltasEmitLuma := by
  intro bytes px s dr dg db hp hl hx hwf hr hne hmiss hdr hdg hdb hdiff hg32 hr8 hb8
  have hd : deltas px s.prev = ⟨dr, dg, db⟩ := by rw [hdr, hdg, hdb]; rfl
  have hbytes := packFields_missChunk_luma (c := s.channels) hd (mt diffEligible_iff.1 hdiff)
    (lumaEligible_iff.2 ⟨hg32, hr8, hb8⟩)
  exact hbytes ▸ exec_pixel_of_miss hp hl hx hwf hr hne hmiss

/-- Settles O15: neither step 4 nor step 5 applies, and the raw chunk follows the channel count. -/
theorem otherPixelsEmitRawColour : Obligations.OtherPixelsEmitRawColour := by
  intro bytes px s dr dg db hp hl hx hwf hr hne hmiss hdr hdg hdb hdiff hluma
  have hd : deltas px s.prev = ⟨dr, dg, db⟩ := by rw [hdr, hdg, hdb]; rfl
  have hbytes := packFields_missChunk_raw (c := s.channels) hd (mt diffEligible_iff.1 hdiff)
    (mt lumaEligible_iff.1 hluma)
  exact hbytes ▸ exec_pixel_of_miss hp hl hx hwf hr hne hmiss

/-- Settles O34: a pixel emits a RUN chunk, its own, both or none, and `chunkPixels_classify` counts them. -/
theorem everyPixelIsAccountedFor : Obligations.EveryPixelIsAccountedFor := by
  intro px s _
  refine ⟨?_, length_pixelBytes_le_six px s, chunkPixels_classify px s⟩
  rcases classify_cases px s with ⟨-, -, e⟩ | ⟨-, -, e⟩ | ⟨-, -, e⟩ | ⟨-, -, e⟩ <;> simp [e]

/-! ### The luma test without wraparound (R77) -/

/-- With `g` in the green range, `d - g` lies in [-159, 159], and a number of that range that wraps into [-8, 7] was in
[-8, 7] before. -/
theorem s8_sub_mem_iff {d g : Int} (hd : -128 ≤ d ∧ d ≤ 127) (hg : -32 ≤ g ∧ g ≤ 31) :
    (-8 ≤ s8 (d - g) ∧ s8 (d - g) ≤ 7) ↔ (-8 ≤ d - g ∧ d - g ≤ 7) := by
  obtain ⟨lo, hi, hmod⟩ := s8_spec (d - g)
  omega

/-- Settles O39: the red and blue tests are those of `s8_sub_mem_iff`, and a number in [-8, 7] does not wrap. -/
theorem lumaTestNeedsNoWraparound : Obligations.LumaTestNeedsNoWraparound := by
  intro px prev
  have htest := (lumaEligible_iff (d := deltas px prev)).trans (and_congr_right fun hg =>
    and_congr (s8_sub_mem_iff (wsub8_range px.r prev.r) hg) (s8_sub_mem_iff (wsub8_range px.b prev.b) hg))
  refine ⟨htest, fun hluma => ?_⟩
  obtain ⟨-, ⟨hr8, hr7⟩, hb8, hb7⟩ := htest.1 hluma
  exact ⟨s8_of_small (hr8.trans' (by decide)) (hr7.trans (by decide)),
    s8_of_small (hb8.trans' (by decide)) (hb7.trans (by decide))⟩

end Sys2Proof.Machine
end

section
/-!
PROOFS. The chunk classifier family (42_chunk_classifier.md): the stream of ENCODE read back (R79, R90).
-/
namespace Sys2Proof.Machine

/-! ### No INDEX twice in a row

A chunk INDEX k leaves `prev` equal to slot k, and until another chunk is emitted neither changes, so the next chunk is
not INDEX k again. This tells the chunks of a pass from END, whose bytes read as seven times INDEX 0 (R49, log 3). -/

/-- Two chunks that are not the same INDEX. -/
def IndexChanges (k l : Chunk) : Prop := ∀ n, k = .index n → l ≠ .index n

/-- The chunks `ks` emitted on the way to `s` hold no INDEX twice in a row, and where the last of them is an INDEX its
slot holds `prev`. -/
structure IndexFresh (ks : List Chunk) (s : State) : Prop where
  chain : ks.IsChain IndexChanges
  last  : ∀ k : Slot, .index k ∈ ks.getLast? → readSlot k s = s.prev

theorem indexFresh_nil (s : State) : IndexFresh [] s := ⟨.nil, by simp⟩

section
variable {ks : List Chunk} {s : State} (h : IndexFresh ks s)
include h

theorem IndexFresh.setRun (n : BitVec 6) : IndexFresh ks (setRun n s) := ⟨h.chain, h.last⟩

theorem IndexFresh.append {k : Chunk} {t : State} (hk : ∀ l ∈ ks.getLast?, IndexChanges l k)
    (ht : ∀ j : Slot, k = .index j → readSlot j t = t.prev) : IndexFresh (ks ++ [k]) t where
  chain := List.isChain_append.2 ⟨h.chain, .singleton k, by simpa using hk⟩
  last := by simpa using ht

/-- A RUN may follow any chunk and be followed by any. -/
theorem IndexFresh.append_run (n : Nat) (t : State) : IndexFresh (ks ++ [.run n]) t :=
  h.append (fun _ _ _ _ => nofun) nofun

theorem IndexFresh.append_flushRun : IndexFresh (ks ++ (flushRun s).1) (Machine.setRun 0#6 s) := by
  rcases flushRun_cases s with ⟨-, e⟩ | ⟨-, e⟩ <;> rw [e]
  · simpa using h.setRun 0#6
  · exact h.append_run _ _

end

/-- Only a hit gives INDEX: the slot holds the pixel, and no slot is written (R70). -/
theorem ownChunk_eq_index {px : Pixel} {s : State} {n : Nat} (h : (ownChunk px s).1 = .index n) :
    n = slot px ∧ readSlot (slot px) s = px ∧ (ownChunk px s).2 = setPrev px s := by
  rcases ownChunk_cases px s with ⟨hit, e⟩ | ⟨-, e⟩ <;> rw [e] at h ⊢
  · exact ⟨(Chunk.index.inj h).symm, (cacheLookup_hit_iff.1 hit).1, rfl⟩
  · rcases missChunk_cases s.channels px s.prev with ⟨-, m⟩ | ⟨-, -, m⟩ | ⟨-, -, m⟩ <;> rw [m] at h
    · exact nomatch h
    · exact nomatch h
    · rcases rawChunk_cases s.channels px with ⟨-, r⟩ | ⟨-, r⟩ <;> rw [r] at h <;> exact nomatch h

/-- The own chunk of a pixel that is not `prev` is not the INDEX just emitted, whose slot holds `prev`. -/
theorem IndexFresh.append_ownChunk {ks : List Chunk} {s : State} (h : IndexFresh ks s) {px : Pixel}
    (hne : px ≠ s.prev) : IndexFresh (ks ++ [(ownChunk px s).1]) (ownChunk px s).2 := by
  refine h.append (fun l hl n hln hown => ?_) fun j hown => ?_
  · obtain ⟨rfl, hread, -⟩ := ownChunk_eq_index hown
    exact hne (hread.symm.trans (h.last _ (hln ▸ hl)))
  · obtain ⟨hj, hread, hstate⟩ := ownChunk_eq_index hown
    rw [hstate, Fin.ext hj]
    exact hread

theorem IndexFresh.append_classify {ks : List Chunk} {s : State} (h : IndexFresh ks s) (px : Pixel) :
    IndexFresh (ks ++ (classify px s).1) (classify px s).2 := by
  have other (hne : px ≠ s.prev) : IndexFresh (ks ++ (classify px s).1) (classify px s).2 := by
    rw [classify_of_ne hne, ← List.append_assoc]
    exact h.append_flushRun.append_ownChunk hne
  rcases classify_cases px s with ⟨-, -, e⟩ | ⟨-, -, e⟩ | ⟨hne, -⟩ | ⟨hne, -⟩
  · simpa [e] using h.setRun _
  · simpa [e] using h.append_run _ _
  · exact other hne
  · exact other hne

/-! ### The chunks of an open pass -/

/-- A pass with 3 or 4 channels emits only the chunk kinds it allows (R48). -/
theorem classify_allowedIn (px : Pixel) {s : State} (hc : legalChannels s.channels = true) :
    ∀ k ∈ (classify px s).1, k.allowedIn s.channels = true := by
  intro k hk
  rcases mem_classify hk with ⟨n, rfl⟩ | ⟨-, rfl | rfl⟩
  · rfl
  · rfl
  · rcases missChunk_cases s.channels px s.prev with ⟨-, m⟩ | ⟨-, -, m⟩ | ⟨-, -, m⟩ <;> rw [m]
    · rfl
    · rfl
    · rcases legalChannels_iff.1 hc with e | e <;> rw [e] <;> rfl

theorem flushRun_allowedIn (c : Byte) (s : State) : ∀ k ∈ (flushRun s).1, k.allowedIn c = true := by
  rcases flushRun_cases s with ⟨-, e⟩ | ⟨-, e⟩ <;> simp [e, Chunk.allowedIn]

/-- `ks` are the chunks that an open pass has emitted (R79, R90). -/
structure PassChunks (ks : List Chunk) (s : State) : Prop where
  out     : s.out.bytes = passHeader s ++ ks.flatMap packFields
  inRange : ∀ k ∈ ks, k.inRange = true
  allowed : ∀ k ∈ ks, k.allowedIn s.channels = true
  fresh   : IndexFresh ks s
  count   : chunkPixels ks + s.run.toNat = s.npix

theorem passChunks_opened (w h : Word32) (c : Byte) (s : State) : PassChunks [] (opened w h c s) where
  out := by simp
  inRange := by simp
  allowed := by simp
  fresh := indexFresh_nil _
  count := rfl

theorem PassChunks.accepted {ks : List Chunk} {s : State} (h : PassChunks ks s) (px : Pixel)
    (hr : s.run.toNat ≤ 62) (hc : legalChannels s.channels = true) :
    PassChunks (ks ++ (classify px s).1) (accepted px s) where
  out := by simp [h.out, pixelBytes]
  inRange := List.forall_mem_append.2 ⟨h.inRange, classify_inRange px hr⟩
  allowed := by
    rw [accepted_channels]
    exact List.forall_mem_append.2 ⟨h.allowed, classify_allowedIn px hc⟩
  fresh := ⟨(h.fresh.append_classify px).chain, (h.fresh.append_classify px).last⟩
  count := by
    have hpx := chunkPixels_classify px s
    have hks := h.count
    simp only [chunkPixels_append, accepted_run, accepted_npix]
    omega

/-- What every command keeps about the chunks of a pass, together with the scan invariant it rests on. -/
def ScanChunks (s : State) : Prop := ScanInv s ∧ (s.phase = .body → ∃ ks, PassChunks ks s)

theorem scanChunks_opened {w h : Word32} {c : Byte} (s : State) (hc : legalChannels c = true) :
    ScanChunks (opened w h c s) :=
  ⟨scanInv_opened s hc, fun _ => ⟨[], passChunks_opened w h c s⟩⟩

theorem scanChunks_kept : KeptByCommands ScanChunks where
  opened _ _ hc := scanChunks_opened _ hc
  accepted {_ px _} hs hp hx := by
    obtain ⟨ks, hks⟩ := hs.2 hp
    exact ⟨hs.1.accepted hp hx, fun _ => ⟨_, hks.accepted px hs.1.runLegal (hs.1.channels (by simp [hp]))⟩⟩
  closed hs hp := ⟨hs.1.closed hp, fun h => nomatch h⟩

/-- FINISH completes the stream: header, chunks, END (R53, R90). -/
theorem PassChunks.closed_bytes {ks : List Chunk} {s : State} (h : PassChunks ks s) :
    (closed s).out.bytes = passHeader s ++ ((ks ++ (flushRun s).1).flatMap packFields ++ endBytes) := by
  simp [h.out, flushRun_bytes, terminatorBytes, endBytes]

/-! ### Reading the stream back -/

/-- Only INDEX 0 is packed as a byte that begins END (R47). -/
theorem eq_index_zero_of_packFields {k : Chunk} (hk : k.inRange = true) {rest tail : List Byte}
    (h : packFields k ++ rest = 0x00 :: tail) : k = .index 0 ∧ rest = tail := by
  have hread : decodeChunk (packFields k ++ rest) = .ok (k.instr, rest) :=
    decodeChunk_of_layout (chunkLayout_packFields hk) rest
  have hzero : decodeChunk (0x00 :: tail) = .ok (.index 0, tail) := decodeChunk_of_layout (.index 0#6) tail
  rw [h, hzero] at hread
  obtain ⟨hi, rfl⟩ := Prod.mk.inj (Except.ok.inj hread)
  cases k <;> cases hi
  exact ⟨rfl, rfl⟩

/-- Chunks before END do not begin with its pattern: they would begin with INDEX 0 twice, or with INDEX 0 and END. -/
theorem take_eight_ne_endBytes {k : Chunk} {ks : List Chunk} (hk : ∀ l ∈ k :: ks, l.inRange = true)
    (hchain : (k :: ks).IsChain IndexChanges) :
    (packFields k ++ (ks.flatMap packFields ++ endBytes)).take 8 ≠ endBytes := by
  intro htake
  obtain ⟨more, hbytes⟩ : ∃ more, packFields k ++ (ks.flatMap packFields ++ endBytes) = endBytes ++ more :=
    ⟨_, (List.take_append_drop 8 _).symm.trans (congrArg (· ++ _) htake)⟩
  obtain ⟨rfl, hrest⟩ := eq_index_zero_of_packFields (hk k (by simp)) hbytes
  cases ks with
  | nil => simp [endBytes] at hrest
  | cons l ls =>
    rw [List.flatMap_cons, List.append_assoc] at hrest
    obtain ⟨rfl, -⟩ := eq_index_zero_of_packFields (hk l (by simp)) hrest
    exact (List.isChain_cons_cons.1 hchain).1 0 rfl rfl

/-- An element that is a chunk stands before what the rest reads as. -/
theorem decodeBody_chunk {fuel : Nat} {bytes rest : List Byte} {k : Chunk} {is : List Instr}
    (hd : decodeElement bytes = .ok (k.instr, rest)) (hb : decodeBody fuel rest = .ok is) :
    decodeBody (fuel + 1) bytes = .ok (k.instr :: is) := by
  rw [decodeBody, hd]
  cases k <;> simp [Chunk.instr, hb]

theorem decodeBody_chunks {ks : List Chunk} (hk : ∀ k ∈ ks, k.inRange = true) (hchain : ks.IsChain IndexChanges)
    {fuel : Nat} (hfuel : ks.length < fuel) :
    decodeBody fuel (ks.flatMap packFields ++ endBytes) = .ok (ks.map Chunk.instr ++ [.endMark]) := by
  induction ks generalizing fuel with
  | nil =>
    obtain ⟨fuel, rfl⟩ := Nat.exists_eq_add_one_of_ne_zero hfuel.ne'
    rfl
  | cons k ks ih =>
    obtain ⟨fuel, rfl⟩ := Nat.exists_eq_add_one_of_ne_zero (Nat.ne_zero_of_lt hfuel)
    rw [List.flatMap_cons, List.append_assoc]
    refine decodeBody_chunk ?_ (ih (fun l hl => hk l (by simp [hl])) hchain.tail (Nat.lt_of_succ_lt_succ hfuel))
    exact decodeElement_of_layout (chunkLayout_packFields (hk k (by simp))) (take_eight_ne_endBytes hk hchain)

theorem length_le_flatMap_packFields (ks : List Chunk) : ks.length ≤ (ks.flatMap packFields).length := by
  have hone : ∀ n ∈ ks.map fun k => (packFields k).length, 1 ≤ n := by
    simpa [Nat.one_le_iff_ne_zero] using fun k (_ : k ∈ ks) => packFields_ne_nil k
  simpa [List.length_flatMap] using List.length_le_sum_of_one_le _ hone

/-- A header, chunks in range without an INDEX twice in a row, and END read back as they are (R90). -/
theorem decodeStream_chunks {magic : Magic} {w h : Word32} {c : Byte} {header : List Byte} {ks : List Chunk}
    (hc : legalChannels c = true) (hheader : encode magic (.header w h c) = some header)
    (hk : ∀ k ∈ ks, k.inRange = true) (hchain : ks.IsChain IndexChanges) :
    decodeStream magic (header ++ (ks.flatMap packFields ++ endBytes)) =
      .ok (.header w h c :: (ks.map Chunk.instr ++ [.endMark])) := by
  have hfuel : ks.length < (ks.flatMap packFields ++ endBytes).length := by
    rw [List.length_append]
    exact (length_le_flatMap_packFields ks).trans_lt (Nat.lt_add_of_pos_right (by decide))
  simp only [decodeStream, decodeHeader_of_encode hc hheader, decodeBody_chunks hk hchain hfuel]

/-! ### The pixels of ENCODE -/

/-- Accepting stored pixels counts them, and changes neither the parameters nor the pass registers. -/
theorem acceptPixels_frame {ps : List (List Byte)} {s t : State} (h : acceptPixels ps s = .next t) :
    t.config = s.config ∧ t.width = s.width ∧ t.height = s.height ∧ t.channels = s.channels ∧
      t.npix = s.npix + ps.length := by
  induction ps generalizing s with
  | nil => cases h; exact ⟨rfl, rfl, rfl, rfl, rfl⟩
  | cons p ps ih =>
    obtain ⟨u, hu, hrest⟩ := andThen_eq_next.1 h
    obtain ⟨-, -, px, -, -, rfl⟩ := acceptPixel_eq_next.1 hu
    simpa [Nat.add_assoc, Nat.add_comm 1] using ih hrest

theorem length_pixelGroups (c : Nat) (input : List Byte) : (pixelGroups c input).length = input.length / c := by
  simp [pixelGroups]

/-- ENCODE that completes is START, the pixels and FINISH (R54). -/
theorem execEncode_eq_next {w h : Word32} {c : Byte} {input : List Byte} {s t : State}
    (he : exec (.encode w h c input) s = .next t) :
    ∃ u, s.phase ≠ .body ∧ legalChannels c = true ∧
      acceptPixels (pixelGroups c.toNat input) (opened w h c s) = .next u ∧ u.phase = .body ∧ t = closed u := by
  rcases exec_cases he with ⟨hrow, -⟩ | ⟨_, _, _, hi, -⟩ | ⟨_, _, hi, -⟩ | ⟨hi, -⟩ | ⟨w', h', c', input', u, hi, hrest⟩
  · exact nomatch hrow
  · exact nomatch hi
  · exact nomatch hi
  · exact nomatch hi
  · cases hi
    exact ⟨u, hrest⟩

/-- Settles O20: the commands of ENCODE keep `PassChunks`, which names the chunks emitted so far; FINISH adds the last
run and END to them, and chunks without an INDEX twice in a row read back as they are. -/
theorem encodedStreamReadsBackAsItsChunks : Obligations.EncodedStreamReadsBackAsItsChunks := by
  intro w h c input s t he
  obtain ⟨u, -, hc, hu, hup, rfl⟩ := execEncode_eq_next he
  obtain ⟨hcfg, hw, hh, hch, hn⟩ := acceptPixels_frame hu
  obtain ⟨hscan, hchunks⟩ := scanChunks_kept.acceptPixels (scanChunks_opened s hc) hu
  obtain ⟨ks, hks⟩ := hchunks hup
  have hrange : ∀ k ∈ ks ++ (flushRun u).1, k.inRange = true :=
    List.forall_mem_append.2 ⟨hks.inRange, flushRun_inRange hscan.runLegal⟩
  have hallowed : ∀ k ∈ ks ++ (flushRun u).1, k.allowedIn c = true :=
    List.forall_mem_append.2 ⟨by simpa [hch] using hks.allowed, flushRun_allowedIn c u⟩
  have hheader : encode s.config.magic (.header w h c) = some (passHeader u) :=
    congrArg some (passHeader_congr (s := opened w h c s) hcfg hw hh hch).symm
  refine ⟨ks ++ (flushRun u).1, ?_, fun k hk => ⟨hrange k hk, hallowed k hk⟩, ?_⟩
  · rw [hks.closed_bytes]
    exact decodeStream_chunks hc hheader hrange hks.fresh.append_flushRun.chain
  · rw [chunkPixels_append, chunkPixels_flushRun, hks.count, hn, opened_npix, length_pixelGroups, Nat.zero_add]

end Sys2Proof.Machine
end

section
/-!
PROOFS. The bit packer family (43_bit_packer.md): the packed bytes as the sums that R7 says agree with the OR, what a
packer row does, and the obligations.
-/
namespace Sys2Proof.Machine

/-! ### The packed bytes as sums (R7) -/

/-- Bit fields set side by side: the upper one counts in units of the lower one's size. -/
theorem toNat_append_eq_add {n m : Nat} (x : BitVec n) (y : BitVec m) :
    (x ++ y).toNat = x.toNat * 2 ^ m + y.toNat := by
  rw [BitVec.toNat_append, ← Nat.shiftLeft_add_eq_or_of_lt y.isLt, Nat.shiftLeft_eq]

theorem eq_ofInt_of_toNat_eq {b : Byte} {v : Int} (h : (b.toNat : Int) = v) : b = BitVec.ofInt 8 v := by
  rw [← h, BitVec.ofInt_natCast, BitVec.ofNat_toNat, BitVec.setWidth_eq]

theorem packFields_index_eq (n : Nat) : packFields (.index n) = [BitVec.ofNat 8 n] := by
  simp only [packFields, byteOf, BitVec.ofInt_natCast]

theorem packFields_run_eq_sum {n : Nat} (hk : (Chunk.run n).inRange = true) :
    packFields (.run n) = [BitVec.ofNat 8 (192 + (n - 1))] := by
  have hl := chunkLayout_packFields hk
  generalize packFields (.run n) = front at hl
  cases hl with
  | run x hx =>
    have hsum : (0b11#2 ++ x).toNat = 192 + x.toNat := toNat_append_eq_add 0b11#2 x
    rw [Nat.add_sub_cancel, ← hsum, BitVec.ofNat_toNat, BitVec.setWidth_eq]

theorem packFields_diff_eq_sum {dr dg db : Int} (hk : (Chunk.diff dr dg db).inRange = true) :
    packFields (.diff dr dg db) = [BitVec.ofInt 8 (64 + (dr + 2) * 16 + (dg + 2) * 4 + (db + 2))] := by
  have hl := chunkLayout_packFields hk
  generalize packFields (.diff dr dg db) = front at hl
  cases hl with
  | diff r g b =>
    refine congrArg (fun x => [x]) (eq_ofInt_of_toNat_eq ?_)
    simp only [toNat_append_eq_add, BitVec.toNat_ofNat]
    omega

theorem packFields_luma_eq_sum {dg drg dbg : Int} (hk : (Chunk.luma dg drg dbg).inRange = true) :
    packFields (.luma dg drg dbg) =
      [BitVec.ofInt 8 (128 + (dg + 32)), BitVec.ofInt 8 ((drg + 8) * 16 + (dbg + 8))] := by
  have hl := chunkLayout_packFields hk
  generalize packFields (.luma dg drg dbg) = front at hl
  cases hl with
  | luma g r b =>
    refine congrArg₂ (fun x y => [x, y]) (eq_ofInt_of_toNat_eq ?_) (eq_ofInt_of_toNat_eq ?_)
    · simp only [toNat_append_eq_add, BitVec.toNat_ofNat]
      omega
    · simp only [toNat_append_eq_add]
      omega

/-! ### The ranges of the fields (R58) -/

theorem inRange_index_iff {n : Nat} : (Chunk.index n).inRange = true ↔ n ≤ 63 := decide_eq_true_iff

theorem inRange_run_iff {n : Nat} : (Chunk.run n).inRange = true ↔ 1 ≤ n ∧ n ≤ 62 := by
  simp only [Chunk.inRange, Chunk.instr, Instr.wellFormed, Bool.and_eq_true, decide_eq_true_eq]

theorem inRange_diff_iff {dr dg db : Int} :
    (Chunk.diff dr dg db).inRange = true ↔ (-2 ≤ dr ∧ dr ≤ 1) ∧ (-2 ≤ dg ∧ dg ≤ 1) ∧ (-2 ≤ db ∧ db ≤ 1) := by
  simp only [Chunk.inRange, Chunk.instr, Instr.wellFormed, Bool.and_eq_true, inRange_iff, and_assoc]

theorem inRange_luma_iff {dg drg dbg : Int} :
    (Chunk.luma dg drg dbg).inRange = true ↔
      (-32 ≤ dg ∧ dg ≤ 31) ∧ (-8 ≤ drg ∧ drg ≤ 7) ∧ (-8 ≤ dbg ∧ dbg ≤ 7) := by
  simp only [Chunk.inRange, Chunk.instr, Instr.wellFormed, Bool.and_eq_true, inRange_iff, and_assoc]

/-! ### What a packer row does -/

/-- A descriptor in range is appended to OUT as its packed bytes, and nothing else is written (R86); one out of range is
BAD_DESCRIPTOR (R94). -/
theorem emitChunk_spec {k : Chunk} {bytes : List Byte} (hbytes : k.inRange = true → packFields k = bytes)
    (s : State) :
    (k.inRange = true → s.out.wf →
      ∃ t, emitChunk k s = .next t ∧ t = { s with out := t.out } ∧ OutGrows bytes s.out t.out) ∧
    (¬ k.inRange = true → emitChunk k s = .refused .badDescriptor) := by
  rcases emitChunk_cases k s with ⟨hk, e⟩ | ⟨hk, e⟩
  · exact ⟨fun _ hwf => ⟨_, e, rfl, hbytes hk ▸ Memory.outGrows_append hwf _⟩, fun hnot => absurd hk hnot⟩
  · exact ⟨fun hk' => absurd hk' (Bool.eq_false_iff.1 hk), fun _ => e⟩

/-! ### The obligations -/

/-- Settles O44: within range the encoder writes the packer's bytes, and `pack` tests that range. -/
theorem packingFormulasFollowTheLayouts : Obligations.PackingFormulasFollowTheLayouts :=
  fun magic _ => if_ctx_congr Iff.rfl (fun hk => (encode_instr hk magic).symm) fun _ => rfl

/-- Settles O2: the packed byte is DIFF's layout, whose fields weigh 64, 16, 4 and 1. -/
theorem diffPacksBiasedDeltas : Obligations.DiffPacksBiasedDeltas := by
  intro dr dg db s
  rw [← inRange_diff_iff]
  exact emitChunk_spec packFields_diff_eq_sum s

/-- Settles O3: the packed bytes are LUMA's layout, whose fields weigh 64 and 1, then 16 and 1. -/
theorem lumaPacksBiasedDeltas : Obligations.LumaPacksBiasedDeltas := by
  intro dg drg dbg s
  rw [← inRange_luma_iff]
  exact emitChunk_spec packFields_luma_eq_sum s

/-- Settles O4: the packed byte is RUN's layout, the tag 192 and the length less one. -/
theorem runPacksLengthLessOne : Obligations.RunPacksLengthLessOne := by
  intro n s
  rw [← inRange_run_iff]
  exact emitChunk_spec packFields_run_eq_sum s

/-- Settles O1: the packed byte is the slot itself. -/
theorem indexPacksItsSlot : Obligations.IndexPacksItsSlot := by
  intro n s
  rw [← Nat.not_le, ← inRange_index_iff]
  exact emitChunk_spec (fun _ => packFields_index_eq n) s

/-- Settles O5: the raw rows have no range to meet. -/
theorem rawChunksPackSamplesUnchanged : Obligations.RawChunksPackSamplesUnchanged :=
  fun r g b a s hwf =>
    ⟨(emitChunk_spec (k := .rgb r g b) (fun _ => rfl) s).1 rfl hwf,
      (emitChunk_spec (k := .rgba r g b a) (fun _ => rfl) s).1 rfl hwf⟩

end Sys2Proof.Machine
end

section
/-!
PROOFS. The stream formatter family (44_stream_formatter.md): the framing rows, the whole stream of ENCODE, and that
nothing follows its terminator.
-/
namespace Sys2Proof.Machine

/-! ### The framing rows -/

/-- Settles O6: both rows are an append to OUT, HEADER of `headerBytes` and END of `terminatorBytes`. -/
theorem framingRowsAppendTheirBytes : Obligations.FramingRowsAppendTheirBytes :=
  fun w h c s hwf =>
    ⟨⟨emitHeader w h c s, rfl, rfl, Memory.outGrows_append hwf _⟩,
      ⟨emitTerminator s, rfl, rfl, Memory.outGrows_append hwf _⟩⟩

/-! ### After the terminator -/

/-- In DONE the only host commands with a meaning are those that open a pass (R55). -/
theorem start_or_encode_of_done {i : Instr} {s t : State} (hi : i.isHostCommand = true) (hp : s.phase = .done)
    (he : exec i s = .next t) : (∃ w h c, i = .start w h c) ∨ ∃ w h c input, i = .encode w h c input := by
  have hne : s.phase ≠ .body := by simp [hp]
  rcases exec_cases he with ⟨hrow, -⟩ | ⟨w, h, c, rfl, -⟩ | ⟨_, _, -, hbody, -⟩ | ⟨-, hbody, -⟩ |
    ⟨w, h, c, input, _, rfl, -⟩
  · exact absurd hi (Bool.eq_false_iff.1 hrow)
  · exact .inl ⟨w, h, c, rfl⟩
  · exact absurd hbody hne
  · exact absurd hbody hne
  · exact .inr ⟨w, h, c, input, rfl⟩

/-- Settles O33: a step takes nothing, a reset or a host command from the port, and of the host commands only START and
ENCODE complete in DONE. -/
theorem nothingFollowsTheTerminator : Obligations.NothingFollowsTheTerminator := by
  intro s t hp hhost hstep
  rcases step_cases s with ⟨-, e⟩ | ⟨rest, hport, -⟩ | ⟨i, rest, hport, e⟩ | ⟨bytes, rest, i, tail, hport, -, -⟩ |
    ⟨bytes, rest, err, hport, -, -⟩
  · exact .inl (congrArg State.out (Host.Outcome.next.inj (hstep.symm.trans e)))
  · exact .inr (.inl ⟨rest, hport⟩)
  · have hexec : exec i (setPort rest s) = .next t := e.symm.trans hstep
    have hdone : (setPort rest s).phase = .done := hp
    rcases start_or_encode_of_done (hostDriven_cons hhost hport).1 hdone hexec with
      ⟨w, h, c, rfl⟩ | ⟨w, h, c, input, rfl⟩
    · exact .inr (.inr (.inl ⟨w, h, c, rest, hport⟩))
    · exact .inr (.inr (.inr ⟨w, h, c, input, rest, hport⟩))
  · exact absurd (hostDriven_cons hhost hport).1 Bool.false_ne_true
  · exact absurd (hostDriven_cons hhost hport).1 Bool.false_ne_true

/-! ### The whole stream of ENCODE -/

/-- A memory in canonical form has grown from the empty one by its contents. -/
theorem Memory.outGrows_empty {m : Memory} (h : m.wf) : OutGrows m.bytes { cells := [] } m := by
  have hm : m = Memory.append { cells := [] } m.bytes :=
    eq_of_bytes_eq h (wf_append wf_empty _) (by simp)
  have hgrows := outGrows_append wf_empty m.bytes
  rwa [← hm] at hgrows

/-- ENCODE completes for every IN where START does, and then it is START, the pixels and FINISH (R54). -/
theorem execEncode_completes (w h : Word32) {c : Byte} (input : List Byte) {s : State} (hp : s.phase ≠ .body)
    (hc : legalChannels c = true) :
    ∃ u, acceptPixels (pixelGroups c.toNat input) (opened w h c s) = .next u ∧ u.phase = .body ∧
      exec (.encode w h c input) s = .next (closed u) := by
  obtain ⟨t, ht⟩ := (execEncode_completes_iff_openPass w h c input s).2 (openPass_completes_iff.2 ⟨hp, hc⟩)
  obtain ⟨u, -, -, hu, hup, rfl⟩ := execEncode_eq_next ht
  exact ⟨u, hu, hup, ht⟩

/-- Settles O19: the pixels keep the scan invariant and the shape of OUT, which bounds the body; FINISH turns the shape
of an open pass into that of a complete stream. -/
theorem encodeWritesWholeStream : Obligations.EncodeWritesWholeStream := by
  intro w h c input s hp hc
  have hlegal : legalChannels c = true := legalChannels_iff.2 hc
  obtain ⟨u, hu, hup, he⟩ := execEncode_completes w h input hp hlegal
  obtain ⟨hcfg, hw, hh, hch, hn⟩ := acceptPixels_frame hu
  have hnpix : u.npix = input.length / c.toNat := by simp [hn, length_pixelGroups]
  obtain ⟨hscan, hshape⟩ :=
    scanShape_kept.acceptPixels ⟨scanInv_opened s hlegal, streamShape_opened w h c s⟩ hu
  obtain ⟨bs, hout, hbound⟩ := hshape.of_body hup
  have hheader : passHeader u = passHeader (opened w h c s) := passHeader_congr hcfg hw hh hch
  have hbytes : (closed u).out.bytes = passHeader (opened w h c s) ++ (bs ++ flushBytes u.run) ++ terminatorBytes := by
    simp [hout, hheader]
  refine ⟨closed u, bs ++ flushBytes u.run, he, rfl, closed_run u, ?_, ?_, ?_, ?_, (exec_config_port he).1,
    (exec_config_port he).2, ?_, ?_⟩
  · exact (closed_npix u).trans hnpix
  · exact (closed_width u).trans hw
  · exact (closed_height u).trans hh
  · exact (closed_channels u).trans hch
  · exact hbytes ▸ Memory.outGrows_empty (hscan.closed hup).outWf
  · rw [List.length_append, ← hnpix]
    rwa [hch, opened_channels] at hbound

end Sys2Proof.Machine
end

section
/-!
PROOFS. The stream formatter family (44_stream_formatter.md): the image of opaque black pixels (R91).
-/
namespace Sys2Proof.Machine

/-! ### The stored pixels of an image -/

/-- The first stored pixel of IN, and those of the rest (R25). -/
theorem pixelGroups_append {c : Nat} (hc : 0 < c) {p : List Byte} (hp : p.length = c) (input : List Byte) :
    pixelGroups c (p ++ input) = p :: pixelGroups c input := by
  have hcount : (p ++ input).length / c = input.length / c + 1 := by
    rw [List.length_append, hp, Nat.add_div_left _ hc]
  have hfirst : memRead (p ++ input) (0 * c) c = p := by simp [memRead, ← hp]
  have hrest (i : Nat) : memRead (p ++ input) ((i + 1) * c) c = memRead input (i * c) c := by
    rw [memRead, Nat.succ_mul, Nat.add_comm, ← hp, List.drop_length_add_append, memRead]
  simp only [pixelGroups, hcount, List.range_succ_eq_map, List.map_cons, List.map_map, hfirst]
  exact congrArg (p :: ·) (List.map_congr_left fun i _ => hrest i)

/-- The stored pixels of IN are the pixels it was put together from. -/
theorem pixelGroups_flatten {c : Nat} (hc : 0 < c) {ps : List (List Byte)} (hps : ∀ p ∈ ps, p.length = c) :
    pixelGroups c ps.flatten = ps := by
  induction ps with
  | nil => simp [pixelGroups]
  | cons p ps ih =>
    obtain ⟨hp, hps⟩ := List.forall_mem_cons.1 hps
    rw [List.flatten_cons, pixelGroups_append hc hp, ih hps]

/-! ### Opaque black pixels at the start of a pass -/

/-- A pass that has seen opaque black pixels alone, with `k` full runs of them in OUT and the rest in `run`: nothing has
been written to `prev` or to the cache (R20, R68, R69). -/
structure BlackRuns (k : Nat) (s : State) : Prop where
  prev     : s.prev = Pixel.opaqueBlack
  cache    : s.cache = Vector.replicate 64 Pixel.transparentBlack
  out      : s.out.bytes = passHeader s ++ List.replicate k 0xFD
  count    : s.npix = 62 * k + s.run.toNat
  runLegal : s.run.toNat ≤ 62
  started  : 0 < k → 0 < s.run.toNat

theorem blackRuns_opened (w h : Word32) (c : Byte) (s : State) : BlackRuns 0 (opened w h c s) where
  prev := rfl
  cache := rfl
  out := by simp
  count := rfl
  runLegal := Nat.zero_le _
  started := id

/-- One more opaque black pixel joins the open run, or completes it and starts the next one. -/
theorem BlackRuns.accepted {k : Nat} {s : State} (h : BlackRuns k s) :
    ∃ j, BlackRuns j (accepted Pixel.opaqueBlack s) := by
  by_cases hr : s.run.toNat < 62
  · rw [accepted_of_continues h.prev.symm hr]
    have hrun : (s.run + 1#6).toNat = s.run.toNat + 1 := by bv_omega
    have hcount : s.npix + 1 = 62 * k + (s.run + 1#6).toNat := by rw [h.count, hrun, Nat.add_assoc]
    exact ⟨k, h.prev, h.cache, h.out, hcount, hrun.trans_le hr, fun _ => (Nat.succ_pos _).trans_eq hrun.symm⟩
  · have hfull : s.run.toNat = 62 := Nat.le_antisymm h.runLegal (Nat.not_lt.1 hr)
    rw [accepted_of_limit h.prev.symm hfull]
    have hcount : s.npix + 1 = 62 * (k + 1) + 1 := by rw [h.count, hfull, Nat.mul_succ]
    refine ⟨k + 1, h.prev, h.cache, ?_, hcount, show 1 ≤ 62 by decide, fun _ => Nat.one_pos⟩
    simp [h.out, List.replicate_succ', passHeader]

theorem BlackRuns.acceptPixels {k : Nat} {ps : List (List Byte)} {s u : State} (h : BlackRuns k s)
    (hps : ∀ p ∈ ps, logicalPixel s.channels p = some Pixel.opaqueBlack) (hu : acceptPixels ps s = .next u) :
    ∃ j, BlackRuns j u := by
  induction ps generalizing k s with
  | nil => exact ⟨k, Host.Outcome.next.inj hu ▸ h⟩
  | cons p ps ih =>
    obtain ⟨v, hv, hrest⟩ := andThen_eq_next.1 hu
    obtain ⟨hp, hps⟩ := List.forall_mem_cons.1 hps
    obtain ⟨-, -, px, hx, -, rfl⟩ := acceptPixel_eq_next.1 hv
    obtain rfl : px = Pixel.opaqueBlack := Option.some.inj (hx.symm.trans hp)
    obtain ⟨j, hj⟩ := h.accepted
    exact ih hj (by simpa using hps) hrest

/-- The stream of a closed pass of opaque black pixels: its full runs, and one run of what is left (R78). -/
theorem BlackRuns.closed_bytes {k : Nat} {s : State} (h : BlackRuns k s) (hn : 1 ≤ s.npix) :
    (closed s).out.bytes = passHeader (closed s) ++ List.replicate ((s.npix - 1) / 62) 0xFD ++
      [BitVec.ofNat 8 (192 + (s.npix - 1) % 62)] ++ terminatorBytes := by
  have hcount := h.count
  have hle := h.runLegal
  have hpos : 0 < s.run.toNat := by have := h.started; omega
  have hfull : (s.npix - 1) / 62 = k := by omega
  have hlast : (s.npix - 1) % 62 = s.run.toNat - 1 := by omega
  have hflush : flushBytes s.run = [BitVec.ofNat 8 (192 + (s.run.toNat - 1))] := by
    rw [flushBytes_eq, if_neg]
    rintro h0
    exact hpos.ne' (congrArg BitVec.toNat h0)
  simp [h.out, hfull, hlast, hflush]

/-- The bytes of a stored opaque black pixel (R9, R25). -/
def blackBytes (c : Byte) : List Byte := if c = 3#8 then [0, 0, 0] else [0, 0, 0, 255]

/-- With 3 or 4 channels they have the size of the pass and are read as opaque black. -/
theorem blackBytes_spec {c : Byte} (hc : c = 3#8 ∨ c = 4#8) :
    0 < c.toNat ∧ (blackBytes c).length = c.toNat ∧ logicalPixel c (blackBytes c) = some Pixel.opaqueBlack := by
  rcases hc with rfl | rfl <;> decide

/-- Settles O24: an opaque black pixel equals `prev` from START on, so it only lengthens the run, and each 62 of them
leave one full RUN chunk in OUT. -/
theorem opaqueBlackImageIsRunsOnly : Obligations.OpaqueBlackImageIsRunsOnly := by
  intro w h c n s hp hc hn
  obtain ⟨hpos, hlen, hblack⟩ := blackBytes_spec hc
  obtain ⟨u, hu, -, he⟩ :=
    execEncode_completes w h (List.replicate n (blackBytes c)).flatten hp (legalChannels_iff.2 hc)
  have hgroups : pixelGroups c.toNat (List.replicate n (blackBytes c)).flatten = List.replicate n (blackBytes c) :=
    pixelGroups_flatten hpos fun p hmem => List.eq_of_mem_replicate hmem ▸ hlen
  rw [hgroups] at hu
  obtain ⟨k, hk⟩ := (blackRuns_opened w h c s).acceptPixels
    (fun p hmem => List.eq_of_mem_replicate hmem ▸ hblack) hu
  obtain ⟨-, -, -, -, hcount⟩ := acceptPixels_frame hu
  have hnpix : u.npix = n := by simpa using hcount
  refine ⟨closed u, he, hnpix ▸ hk.closed_bytes (hnpix ▸ hn), (closed_npix u).trans hnpix,
    (closed_prev u).trans hk.prev, ?_⟩
  rw [closed_eq]
  exact hk.cache

end Sys2Proof.Machine
end

section
/-!
PROOFS. The reset and hazards family (70_reset_and_hazards.md): a hardware reset on the port (R102), and the cache as the
only state that carries a colour past the next pixel (R105).
-/
namespace Sys2Proof.Machine

/-! ### Hardware reset -/

theorem step_of_reset {s : State} {rest : List Transaction} (h : s.port = .reset :: rest) :
    step s = .next (hardwareReset (setPort rest s)) := by
  simp [step, h, requestOf, serve, setPort]

/-- Settles O29: the step is the hardware reset of the state with the transaction taken, whose fields are those of R21. -/
theorem hardwareResetDiscardsPass : Obligations.HardwareResetDiscardsPass :=
  fun _ _ hport => ⟨_, step_of_reset hport, rfl⟩

/-! ### A lookup after a cache write (R62, R63) -/

/-- The pixel just written to its slot hits, in both settings of `CACHE_VALID_TRACKING`. -/
theorem cacheLookup_cacheWrite_self (px : Pixel) (s : State) :
    (cacheLookup px (cacheWrite (slot px) px s)).2 = true := by
  refine cacheLookup_hit_iff.2 ⟨?_, fun htrack => ?_⟩
  · rw [readSlot_cacheWrite, if_pos rfl]
  · rw [readValid_cacheWrite, if_pos ⟨htrack, rfl⟩]

/-- A write to another slot is not seen by the lookup. -/
theorem cacheLookup_cacheWrite_of_ne {px : Pixel} {k : Slot} (hk : slot px ≠ k) (qx : Pixel) (s : State) :
    cacheLookup px (cacheWrite k qx s) = cacheLookup px s := by
  simp [cacheLookup, readSlot_cacheWrite, readValid_cacheWrite, hk]

/-! ### A lookup after a pixel that is not `prev` (R64, R105) -/

section
variable {px : Pixel} {s : State} (hne : px ≠ s.prev)
include hne

/-- A lookup sees of such a pixel only its cache write, which a hit does not make (R63, R70). -/
theorem cacheLookup_accepted (qx : Pixel) :
    cacheLookup qx (accepted px s) =
      cacheLookup qx (if (cacheLookup px s).2 = true then s else cacheWrite (slot px) px s) := by
  by_cases hit : (cacheLookup px s).2 = true
  · rw [if_pos hit, accepted_of_hit hne hit]; rfl
  · rw [if_neg hit, accepted_of_miss hne (Bool.eq_false_iff.2 hit)]; rfl

/-- Such a pixel is in the cache afterwards, found there or written. -/
theorem cacheLookup_accepted_self : (cacheLookup px (accepted px s)).2 = true := by
  rw [cacheLookup_accepted hne]
  split
  case isTrue hit => exact hit
  case isFalse => exact cacheLookup_cacheWrite_self px s

theorem cacheLookup_accepted_of_slot_ne {qx : Pixel} (hk : slot qx ≠ slot px) :
    cacheLookup qx (accepted px s) = cacheLookup qx s := by
  rw [cacheLookup_accepted hne]
  split
  case isTrue => rfl
  case isFalse => exact cacheLookup_cacheWrite_of_ne hk px s

theorem readSlot_slot_accepted : readSlot (slot px) (accepted px s) = px :=
  (cacheLookup_hit_iff.1 (cacheLookup_accepted_self hne)).1

theorem accepted_run_of_ne : (accepted px s).run = 0#6 := by simp [classify_of_ne hne]

end

/-- A PIXEL that completes has the size of an open pass, and leaves the state of its logical pixel accepted (R52). -/
theorem exec_pixel_eq_next {bytes : List Byte} {px : Pixel} {s t : State}
    (hx : logicalPixel s.channels bytes = some px) (he : exec (.pixel bytes) s = .next t) :
    s.phase = .body ∧ bytes.length = s.channels.toNat ∧ t = accepted px s := by
  obtain ⟨hp, hl, px', hx', -, rfl⟩ := acceptPixel_eq_next.1 he
  obtain rfl : px = px' := Option.some.inj (hx.symm.trans hx')
  exact ⟨hp, hl, rfl⟩

/-- With no run open a PIXEL that differs from `prev` and hits emits its INDEX alone; the cache is not written (R70). -/
theorem exec_pixel_of_hit {bytes : List Byte} {px : Pixel} {s : State} (hp : s.phase = .body)
    (hl : bytes.length = s.channels.toNat) (hx : logicalPixel s.channels bytes = some px) (hwf : s.out.wf)
    (hr : s.run = 0#6) (hne : px ≠ s.prev) (hit : (cacheLookup px s).2 = true) :
    ∃ t, exec (.pixel bytes) s = .next t ∧ OutGrows [BitVec.ofNat 8 (slot px)] s.out t.out ∧ t.prev = px ∧
      t.cache = s.cache := by
  obtain ⟨hread, hvalid⟩ := cacheLookup_hit_iff.1 hit
  obtain ⟨t, ht, hstate, hgrows⟩ := cachedPixelEmitsIndex bytes px s hp hl hx hwf (by simp [hr]) hne hread hvalid
  rw [hr, flushBytes_zero, List.nil_append] at hgrows
  exact ⟨t, ht, hgrows, by rw [hstate], by rw [hstate]⟩

/-- Settles O36: once accepted, p is in its slot. If q writes another slot p still hits; if it writes the same slot, that
slot holds q. -/
theorem cacheCarriesColoursToLaterPixels : Obligations.CacheCarriesColoursToLaterPixels := by
  intro bp bq p q s t u hwf hbp hbq hp hqp ht hu
  obtain ⟨hphase, hlen, rfl⟩ := exec_pixel_eq_next hbp ht
  obtain ⟨-, -, rfl⟩ := exec_pixel_eq_next ((accepted_channels p s).symm ▸ hbq) hu
  have hq : q ≠ (accepted p s).prev := (accepted_prev p s).symm ▸ hqp
  refine ⟨fun hslot => ?_, fun hslot => ?_⟩
  · have hit : (cacheLookup p (accepted q (accepted p s))).2 = true := by
      rw [cacheLookup_accepted_of_slot_ne hq hslot.symm]
      exact cacheLookup_accepted_self hp
    have hout : (accepted q (accepted p s)).out.wf := by simpa using Memory.wf_append (Memory.wf_append hwf _) _
    exact exec_pixel_of_hit (by simpa using hphase) (by simpa using hlen) (by simpa using hbp) hout
      (accepted_run_of_ne hq) (by simpa using hqp.symm) hit
  · have hread : readSlot (slot p) (accepted q (accepted p s)) = q := hslot ▸ readSlot_slot_accepted hq
    refine ⟨Bool.eq_false_iff.2 fun hit => hqp ?_, hread⟩
    exact hread.symm.trans (cacheLookup_hit_iff.1 hit).1

end Sys2Proof.Machine
end
